-- ==== Sys2Proof/Word.lean ====
section
/-! DEFINITION. The words of the block: `word32`, a byte of the I/O channels, a register index (spec/00_scope.md R5, R8). -/

namespace Sys2Proof

/-- A register, a memory word and an instruction word: an unsigned 32-bit value (R5, R8). -/
abbrev Word := BitVec 32

/-- One item of the byte channels of OUT and IN (R5). -/
abbrev Byte := BitVec 8

/-- The index of a general register: a 3-bit field names one of exactly 8 (R5, R10, R90). -/
abbrev Reg := Fin 8

end Sys2Proof
end

