-- ==== Sys2Proof/Machine/Memory.lean ====
section
/-! DEFINITION. The segment store as plain data (spec/20_memory.md R40 to R42). No operation stands here. -/

namespace Sys2Proof.Machine

/-- A segment: its length in words and its words by offset. `cells` lists, in strictly rising
order of offset, exactly the words that are not 0; an offset below `len` that is not listed holds
0, since every segment is created with all words zero (R41). DEDUCED (log entry 1). -/
structure Segment where
  len : Nat
  cells : List (Nat × Word)
  deriving DecidableEq, Repr

/-- The segment store (R42): the table of mapped segments in strictly rising order of identifier,
an identifier not listed being unmapped; the free pool, head released last; the next identifier
to mint. DEDUCED (log entry 1). -/
structure Memory where
  seg : List (Nat × Segment)
  free : List Word
  nextFresh : Nat
  deriving DecidableEq, Repr

end Sys2Proof.Machine
end

