-- ==== Sys2Proof/Config.lean ====
section
/-! DEFINITION. What the spec fixes for a model as a whole (the fault causes) and its open parameters, the free values. -/

namespace Sys2Proof

/-- The fault causes, in the order of their codes 1 to 10 (spec/60_exceptions.md R200). -/
inductive Cause where
  | invalidOpcode
  | fetchOutOfBounds
  | unmappedSegment
  | segmentOutOfBounds
  | divideByZero
  | outputRange
  | releaseProgramSegment
  | allocationFailure
  | encodingOverflow
  | codecContract
  deriving DecidableEq, Repr

/-- FREE VALUE. The open parameter `input` (spec/00_scope.md R6, spec/10_state.md R34): the item
the source gives at each position, a byte, or `none` for end of stream. Log entry 3. -/
opaque Config.inputItem : Nat → Option Byte

/-- FREE VALUE. The open parameter `alloc_ok(store, size)` (spec/00_scope.md R6,
spec/20_memory.md R48): whether the platform has storage for `size` words more. Log entry 4. -/
opaque Config.allocOk : Machine.Memory → Word → Bool

end Sys2Proof
end

