-- ==== Sys2Proof/Syntax.lean ====
section
/-! DEFINITION. The instructions: one constructor for each row of spec/opcode_table.json (spec/30_encoding.md R92). -/

namespace Sys2Proof

/-- The 14 instructions of UM-14 with the operands each uses, named as spec/30_encoding.md R87 and
R88 name the fields. The immediate of `lv` is a `word32` here; `Instr.wellFormed` says that it
fits its 25-bit field. `inp` is the row `in`, whose name Lean keeps for itself. -/
inductive Instr where
  | cmov (a b c : Reg)
  | sload (a b c : Reg)
  | sstore (a b c : Reg)
  | add (a b c : Reg)
  | mul (a b c : Reg)
  | div (a b c : Reg)
  | nand (a b c : Reg)
  | halt
  | map (b c : Reg)
  | unmap (c : Reg)
  | out (c : Reg)
  | inp (c : Reg)
  | loadp (b c : Reg)
  | lv (r : Reg) (imm : Word)
  deriving DecidableEq, Repr

end Sys2Proof
end

