-- ==== Sys2Proof/WellFormed.lean ====
section
/-! DEFINITION. Which instructions have an encoding (spec/30_encoding.md R91, R97). -/

namespace Sys2Proof

/-- Every field fits its width. A register index fits by its type, so the one check is that the
immediate of LV is below 2^25 (R91, R97). -/
def Instr.wellFormed (i : Instr) : Bool :=
  match i with
  | .cmov _ _ _ => true
  | .sload _ _ _ => true
  | .sstore _ _ _ => true
  | .add _ _ _ => true
  | .mul _ _ _ => true
  | .div _ _ _ => true
  | .nand _ _ _ => true
  | .halt => true
  | .map _ _ => true
  | .unmap _ => true
  | .out _ => true
  | .inp _ => true
  | .loadp _ _ => true
  | .lv _ imm => decide (imm.toNat < 2 ^ 25)

end Sys2Proof
end

