-- ==== Sys2Proof/Decode.lean ====
section
/-! DEFINITION. The bit-field codec, the decoder and after it the encoder (spec/30_encoding.md R80 to R97). -/

namespace Sys2Proof

/-! The codec -/

/-- The `width`-bit field of `w` at `offset`, right-justified and zero-extended: the formula of
R80, before its contract is checked. -/
def fieldOf (w : Word) (width offset : Nat) : Nat :=
  (w.toNat >>> offset) &&& (2 ^ width - 1)

/-- `extract_unsigned` (R80); a call with `width + offset > 32` raises `CODEC_CONTRACT` (R81). -/
def extractUnsigned (w : Word) (width offset : Nat) : Except Cause Nat :=
  if width + offset ≤ 32 then .ok (fieldOf w width offset) else .error .codecContract

/-- `fits_unsigned` (R82). -/
def fitsUnsigned (value width : Nat) : Bool :=
  decide (value < 2 ^ width)

/-- The mask of a field: `width` ones starting at bit `offset` (R83). -/
def fieldMask (width offset : Nat) : Word :=
  BitVec.ofNat 32 ((2 ^ width - 1) <<< offset)

/-- `pack_unsigned` (R83): the contract is checked first (R81), then that the value fits (R84);
a value is never truncated. -/
def packUnsigned (w : Word) (width offset value : Nat) : Except Cause Word :=
  if width + offset ≤ 32 then
    if fitsUnsigned value width then
      .ok ((w &&& ~~~(fieldMask width offset)) ||| BitVec.ofNat 32 (value <<< offset))
    else .error .encodingOverflow
  else .error .codecContract

/-! The decoder -/

/-- The decoder's verdict on a word (R90): an instruction, or `Invalid(op)` by name. -/
inductive Decoded where
  | instr (i : Instr)
  | invalid (op : Nat)
  deriving DecidableEq, Repr

/-- The opcode of every word, whatever its format (R89). -/
def opcodeOf (w : Word) : Nat :=
  fieldOf w 4 28

/-- A register-index field: every 3-bit value names a register (R90). -/
def regField (w : Word) (offset : Nat) : Reg :=
  Fin.ofNat 8 (fieldOf w 3 offset)

/-- Field A of the three-register format, bits [8:6] (R87). -/
def fieldA (w : Word) : Reg := regField w 6

/-- Field B of the three-register format, bits [5:3] (R87). -/
def fieldB (w : Word) : Reg := regField w 3

/-- Field C of the three-register format, bits [2:0] (R87). -/
def fieldC (w : Word) : Reg := regField w 0

/-- Field R of the load-immediate format, bits [27:25] (R88). -/
def fieldR (w : Word) : Reg := regField w 25

/-- The immediate of the load-immediate format, bits [24:0], zero-extended (R88, R91). -/
def fieldImm (w : Word) : Word := BitVec.ofNat 32 (fieldOf w 25 0)

/-- The decoder (R90), total on all words. Bits of no field an instruction uses are not read
(R94); opcodes 14 and 15 are invalid (R95). -/
def decode (w : Word) : Decoded :=
  match opcodeOf w with
  | 0 => .instr (.cmov (fieldA w) (fieldB w) (fieldC w))
  | 1 => .instr (.sload (fieldA w) (fieldB w) (fieldC w))
  | 2 => .instr (.sstore (fieldA w) (fieldB w) (fieldC w))
  | 3 => .instr (.add (fieldA w) (fieldB w) (fieldC w))
  | 4 => .instr (.mul (fieldA w) (fieldB w) (fieldC w))
  | 5 => .instr (.div (fieldA w) (fieldB w) (fieldC w))
  | 6 => .instr (.nand (fieldA w) (fieldB w) (fieldC w))
  | 7 => .instr .halt
  | 8 => .instr (.map (fieldB w) (fieldC w))
  | 9 => .instr (.unmap (fieldC w))
  | 10 => .instr (.out (fieldC w))
  | 11 => .instr (.inp (fieldC w))
  | 12 => .instr (.loadp (fieldB w) (fieldC w))
  | 13 => .instr (.lv (fieldR w) (fieldImm w))
  | op => .invalid op

/-- A word given as the opcode table numbers its bits: bit 0 is the least significant of the one
word an instruction has (R7, R86); bits from `nbits` up are 0. -/
def tableWord (nbits w : Nat) : Word :=
  BitVec.ofNat 32 (w % 2 ^ nbits)

/-- The instruction the decoder reads from a table word; no instruction is longer than 32 bits. -/
def decodeTableWord (nbits w : Nat) : Option Instr :=
  if nbits ≤ 32 then
    match decode (tableWord nbits w) with
    | .instr i => some i
    | .invalid _ => none
  else none

/-! The encoder -/

/-- `encode3R` (R97): the fields packed from 0, so that every ignored bit is 0. -/
def encode3R (op a b c : Nat) : Except Cause Word := do
  let w0 ← packUnsigned 0#32 4 28 op
  let w1 ← packUnsigned w0 3 6 a
  let w2 ← packUnsigned w1 3 3 b
  packUnsigned w2 3 0 c

/-- `encodeLI` (R97). -/
def encodeLI (r imm : Nat) : Except Cause Word := do
  let w0 ← packUnsigned 0#32 4 28 13
  let w1 ← packUnsigned w0 3 25 r
  packUnsigned w1 25 0 imm

/-- The opcode of an instruction (R92). -/
def Instr.opcode (i : Instr) : Nat :=
  match i with
  | .cmov _ _ _ => 0
  | .sload _ _ _ => 1
  | .sstore _ _ _ => 2
  | .add _ _ _ => 3
  | .mul _ _ _ => 4
  | .div _ _ _ => 5
  | .nand _ _ _ => 6
  | .halt => 7
  | .map _ _ => 8
  | .unmap _ => 9
  | .out _ => 10
  | .inp _ => 11
  | .loadp _ _ => 12
  | .lv _ _ => 13

/-- The encoder (R97, R98): an operand an instruction does not use is encoded as 0. -/
def encode (i : Instr) : Except Cause Word :=
  match i with
  | .cmov a b c => encode3R 0 a.val b.val c.val
  | .sload a b c => encode3R 1 a.val b.val c.val
  | .sstore a b c => encode3R 2 a.val b.val c.val
  | .add a b c => encode3R 3 a.val b.val c.val
  | .mul a b c => encode3R 4 a.val b.val c.val
  | .div a b c => encode3R 5 a.val b.val c.val
  | .nand a b c => encode3R 6 a.val b.val c.val
  | .halt => encode3R 7 0 0 0
  | .map b c => encode3R 8 0 b.val c.val
  | .unmap c => encode3R 9 0 0 c.val
  | .out c => encode3R 10 0 0 c.val
  | .inp c => encode3R 11 0 0 c.val
  | .loadp b c => encode3R 12 0 b.val c.val
  | .lv r imm => encodeLI r.val imm.toNat

end Sys2Proof
end

