-- ==== Sys2Proof/Machine/State.lean ====
section
/-! DEFINITION. The state of the block, as plain data, and its value right after reset (spec/10_state.md R10 to R23). -/

namespace Sys2Proof.Machine

/-- The run state (spec/10_state.md R19). `halted` and `faulted` are terminal and distinct. -/
inductive Run where
  | running
  | halted
  | faulted
  deriving DecidableEq, Repr

/-- The fault record (spec/10_state.md R20): the cause, the address of the faulting instruction,
and its word, `none` when the fetch itself faulted. -/
structure FaultRecord where
  cause : Cause
  fpc : Word
  fword : Option Word
  deriving DecidableEq, Repr

/-- The byte-input source and its position (spec/10_state.md R22, R34). `oracle n` is the open
source at its item `n`, whose items are the free value `Config.inputItem`. `bytes rest` is the
source of the spec's reference environment (spec/92_eei_decisions.md D13, D29): the bytes still
to come, and end of stream for ever after. DESIGN CHOICE (log entry 3). -/
inductive InputSource where
  | oracle (pos : Nat)
  | bytes (rest : List Byte)
  deriving DecidableEq, Repr

/-- Which predicate `alloc_ok` the model is given (spec/00_scope.md R6): the open platform
predicate `Config.allocOk`, or one fixed answer (`fixed true` is the reference environment,
spec/92_eei_decisions.md D29). DESIGN CHOICE (log entry 4). -/
inductive AllocPolicy where
  | platform
  | fixed (answer : Bool)
  deriving DecidableEq, Repr

/-- The complete state of the block (spec/10_state.md R23), with the two parameters of a run,
`input` and `alloc`, that R23 names beside it. -/
structure State where
  x : Vector Word 8
  pc : Word
  run : Run
  fault : Option FaultRecord
  mem : Memory
  outq : List Byte
  input : InputSource
  alloc : AllocPolicy
  deriving DecidableEq, Repr

/-- Why a step has no next state. Both are the missing transitions of the two terminal states
(spec/40_step_dispatch.md R117); a fault of the BLOCK is no `Fault` here but a next state
(spec/60_exceptions.md R203). -/
inductive Fault where
  /-- Raised by `step` in `Halted`: no further instruction executes. Safe. -/
  | stepWhenHalted
  /-- Raised by `step` in `Faulted`: a fault aborts the run. Safe. -/
  | stepWhenFaulted
  deriving DecidableEq, Repr

/-- Why the model has no meaning for an instruction. -/
inductive Refusal where
  /-- Raised by an arm of `exec` whose instruction has no meaning yet; no arm does. Safe. -/
  | notModelled (mnemonic : String)
  deriving DecidableEq, Repr

/-- The state right after reset (spec/70_reset_and_hazards.md R230 to R232, R235) with the empty
image, so that no program is invented: segment 0 is mapped and has no words (log entry 5). -/
def State.reset : State where
  x := Vector.replicate 8 0#32
  pc := 0#32
  run := .running
  fault := none
  mem := { seg := [(0, { len := 0, cells := [] })], free := [], nextFresh := 1 }
  outq := []
  input := .oracle 0
  alloc := .platform

end Sys2Proof.Machine
end

