-- ==== Sys2Proof/Machine/Ops.lean ====
section
/-! DEFINITION. The named operations every meaning is built from: sorted tables, segments, the segment-store port, registers, the byte channels, and taking a fault. -/

namespace Sys2Proof.Machine

/-! Tables: lists of keys and values in strictly rising order of key -/

/-- The value listed at a key. -/
def tableGet {α : Type} : List (Nat × α) → Nat → Option α
  | [], _ => none
  | (k, v) :: rest, a => if k = a then some v else tableGet rest a

/-- The table with `v` at key `a`, kept in rising order. -/
def tablePut {α : Type} : List (Nat × α) → Nat → α → List (Nat × α)
  | [], a, v => [(a, v)]
  | (k, u) :: rest, a, v =>
    if a < k then (a, v) :: (k, u) :: rest
    else if k = a then (a, v) :: rest
    else (k, u) :: tablePut rest a v

/-- The table without key `a`. -/
def tableErase {α : Type} (l : List (Nat × α)) (a : Nat) : List (Nat × α) :=
  l.filter fun p => p.1 != a

/-- Keys in strictly rising order, so none is listed twice. -/
def tableSorted {α : Type} (l : List (Nat × α)) : Bool :=
  decide (l.Pairwise fun p q => p.1 < q.1)

/-! Segments (spec/20_memory.md R41) -/

/-- A new segment of `n` words, all zero (R41, R47). -/
def Segment.zeros (n : Nat) : Segment := { len := n, cells := [] }

/-- The word at an offset: 0 where no cell is listed. -/
def Segment.word (g : Segment) (off : Nat) : Word :=
  (tableGet g.cells off).getD 0#32

/-- The segment with word `off` replaced; a 0 is not listed, which keeps the form canonical. -/
def Segment.setWord (g : Segment) (off : Nat) (v : Word) : Segment :=
  { g with cells := if v = 0#32 then tableErase g.cells off else tablePut g.cells off v }

/-- The cells of a list of words that starts at offset `k`. -/
def cellsFrom : Nat → List Word → List (Nat × Word)
  | _, [] => []
  | k, w :: ws => if w = 0#32 then cellsFrom (k + 1) ws else (k, w) :: cellsFrom (k + 1) ws

/-- The segment that holds a given list of words. -/
def Segment.ofWords (ws : List Word) : Segment :=
  { len := ws.length, cells := cellsFrom 0 ws }

/-- The words of a segment, in order of offset. -/
def Segment.words (g : Segment) : List Word :=
  (List.range g.len).map g.word

/-- The canonical form of a segment: offsets strictly rising and below the length, no 0 listed;
and the length is at most 2^32 - 1 (R41). -/
def Segment.wf (g : Segment) : Bool :=
  tableSorted g.cells && g.cells.all (fun p => decide (p.1 < g.len) && p.2 != 0#32) &&
    decide (g.len < 2 ^ 32)

/-! The segment store and its port (spec/10_state.md R35) -/

/-- The canonical form of the store: identifiers strictly rising and below 2^32, each segment
canonical. -/
def Memory.wf (m : Memory) : Bool :=
  tableSorted m.seg && m.seg.all fun p => decide (p.1 < 2 ^ 32) && p.2.wf

/-- Translating an identifier: `seg[id]`, `none` for `unmapped` (R44). -/
def Memory.segment (m : Memory) (id : Word) : Option Segment :=
  tableGet m.seg id.toNat

/-- `SegRead(id, off)` (R45). -/
def Memory.segRead (m : Memory) (id off : Word) : Except Cause Word :=
  match m.segment id with
  | none => .error .unmappedSegment
  | some g => if off.toNat < g.len then .ok (g.word off.toNat) else .error .segmentOutOfBounds

/-- `Fetch(off)`: the same read of segment 0 with its own fault (R45). Segment 0 is always mapped
(I1 of R43); a state in which it is not, which no run reaches, is given the same fault. DESIGN
CHOICE (log entry 7). -/
def Memory.fetch (m : Memory) (off : Word) : Except Cause Word :=
  match m.segment 0#32 with
  | none => .error .fetchOutOfBounds
  | some g => if off.toNat < g.len then .ok (g.word off.toNat) else .error .fetchOutOfBounds

/-- The store with a segment at an identifier. -/
def Memory.setSegment (m : Memory) (id : Word) (g : Segment) : Memory :=
  { m with seg := tablePut m.seg id.toNat g }

/-- `SegWrite(id, off, v)` (R46): the checks of `SegRead`, in the same order. -/
def Memory.segWrite (m : Memory) (id off v : Word) : Except Cause Memory :=
  match m.segment id with
  | none => .error .unmappedSegment
  | some g =>
    if off.toNat < g.len then .ok (m.setSegment id (g.setWord off.toNat v))
    else .error .segmentOutOfBounds

/-- `Allocate(size)` (R47), with the answer of `alloc_ok(store, size)` as an argument (R48): the
head of the free pool, else the next fresh identifier; every check before any change. -/
def Memory.allocate (m : Memory) (allocOk : Bool) (size : Word) : Except Cause (Word × Memory) :=
  match m.free with
  | id :: rest =>
    if allocOk then .ok (id, { m with free := rest }.setSegment id (Segment.zeros size.toNat))
    else .error .allocationFailure
  | [] =>
    if m.nextFresh < 2 ^ 32 && allocOk then
      .ok (BitVec.ofNat 32 m.nextFresh,
        { m with nextFresh := m.nextFresh + 1 }.setSegment (BitVec.ofNat 32 m.nextFresh)
          (Segment.zeros size.toNat))
    else .error .allocationFailure

/-- `Release(id)` (R49): identifier 0 is refused first (R50). -/
def Memory.release (m : Memory) (id : Word) : Except Cause Memory :=
  if id = 0#32 then .error .releaseProgramSegment
  else
    match m.segment id with
    | none => .error .unmappedSegment
    | some _ => .ok { m with seg := tableErase m.seg id.toNat, free := id :: m.free }

/-- `ReplaceProgram(id)` (R51): segment 0 becomes a copy of segment `id`; of itself, nothing. -/
def Memory.replaceProgram (m : Memory) (id : Word) : Except Cause Memory :=
  match m.segment id with
  | none => .error .unmappedSegment
  | some g => if id = 0#32 then .ok m else .ok (m.setSegment 0#32 g)

/-- `create(initial_words)` (R52). -/
def Memory.create (ws : List Word) : Memory :=
  { seg := [(0, Segment.ofWords ws)], free := [], nextFresh := 1 }

/-! Registers and the program counter (spec/10_state.md R10, R11, R13 to R15) -/

/-- `x[i]`. -/
def State.reg (s : State) (r : Reg) : Word := s.x[r]

/-- `x[i] <- v`; no register is hard-wired (R10). -/
def State.setReg (s : State) (r : Reg) (v : Word) : State :=
  { s with x := s.x.set r v }

/-- `pc <- v`. -/
def State.setPc (s : State) (v : Word) : State := { s with pc := v }

/-- `pc <- pc + 1 mod 2^32`, after a successful fetch (R15, spec/40_step_dispatch.md R112). -/
def State.advance (s : State) : State := s.setPc (s.pc + 1#32)

/-- The state with another segment store. -/
def State.setMem (s : State) (m : Memory) : State := { s with mem := m }

/-- `run <- Halted` (spec/43_control_io.md R160). -/
def State.stop (s : State) : State := { s with run := .halted }

/-! The byte channels (spec/10_state.md R33, R34) -/

/-- `Out(b)`: b is appended; the sink never fails (R33). -/
def State.send (s : State) (b : Byte) : State := { s with outq := s.outq ++ [b] }

/-- The item `In()` answers: a byte, or `none` for `EOF` (R34). -/
def InputSource.item (i : InputSource) : Option Byte :=
  match i with
  | .oracle pos => Config.inputItem pos
  | .bytes [] => none
  | .bytes (b :: _) => some b

/-- The source after its item is taken. -/
def InputSource.taken (i : InputSource) : InputSource :=
  match i with
  | .oracle pos => .oracle (pos + 1)
  | .bytes [] => .bytes []
  | .bytes (_ :: rest) => .bytes rest

/-- The state after `In()` has taken its item (R34). -/
def State.takeInput (s : State) : State := { s with input := s.input.taken }

/-- The answer of `alloc_ok(store, size)` (spec/20_memory.md R48). -/
def State.allocOk (s : State) (size : Word) : Bool :=
  match s.alloc with
  | .platform => Config.allocOk s.mem size
  | .fixed answer => answer

/-! Taking a fault (spec/60_exceptions.md R200 to R203) -/

/-- The numeric code of a cause (R200). -/
def causeCode (c : Cause) : Nat :=
  match c with
  | .invalidOpcode => 1
  | .fetchOutOfBounds => 2
  | .unmappedSegment => 3
  | .segmentOutOfBounds => 4
  | .divideByZero => 5
  | .outputRange => 6
  | .releaseProgramSegment => 7
  | .allocationFailure => 8
  | .encodingOverflow => 9
  | .codecContract => 10

/-- The kinds of the source's taxonomy (R202): Encoding, Contract, Arithmetic and I/O contract
faults, `none` for the two codes outside it. -/
def causeKind (c : Cause) : Option String :=
  match c with
  | .invalidOpcode => some "Contract fault"
  | .fetchOutOfBounds => some "Contract fault"
  | .unmappedSegment => some "Contract fault"
  | .segmentOutOfBounds => some "Contract fault"
  | .divideByZero => some "Arithmetic fault"
  | .outputRange => some "I/O contract fault"
  | .releaseProgramSegment => some "Contract fault"
  | .allocationFailure => none
  | .encodingOverflow => some "Encoding fault"
  | .codecContract => none

/-- Taking a fault (R201, R203): the run state becomes Faulted, the record is written, and nothing
else changes. -/
def State.raise (s : State) (c : Cause) (fpc : Word) (fword : Option Word) : State :=
  { s with run := .faulted, fault := some { cause := c, fpc := fpc, fword := fword } }

/-- The address of the executing instruction, seen from its handler, which runs with
`pc = ipc + 1` (spec/10_state.md R14). -/
def State.ipc (s : State) : Word := s.pc - 1#32

/-- The word of the executing instruction, seen from its handler: the word of segment 0 at `ipc`.
A handler that faults has not changed the store (R203), so this is the word that was fetched.
DEDUCED (log entry 2). -/
def State.currentWord (s : State) : Option Word :=
  match s.mem.fetch s.ipc with
  | .ok w => some w
  | .error _ => none

/-- A fault of a handler (R203): taken on the state the handler started from, so that a faulting
instruction has no effect but the pc advance (R204, spec/40_step_dispatch.md R118). -/
def State.handlerFault (s : State) (c : Cause) : State :=
  s.raise c s.ipc s.currentWord

/-- The end of a handler: its result, or the fault it raised. The block has no return from a
fault (spec/60_exceptions.md R205). -/
def State.finish (s : State) (r : Except Cause State) : State :=
  match r with
  | .ok t => t
  | .error c => s.handlerFault c

end Sys2Proof.Machine
end

