-- ==== Sys2Proof/Machine/Operands.lean ====
section
/-! DEFINITION. The operand forms and the values the handlers compute (spec/42_segment_ops.md R140, spec/41_register_ops.md R121 to R126). -/

namespace Sys2Proof.Machine

/-- The one addressing mode (R140), as SLOAD uses it: `(x[B], x[C])`. -/
def loadAddress (s : State) (b c : Reg) : Word × Word := (s.reg b, s.reg c)

/-- The one addressing mode (R140), as SSTORE uses it: `(x[A], x[B])`. -/
def storeAddress (s : State) (a b : Reg) : Word × Word := (s.reg a, s.reg b)

/-- `(u + v) mod 2^32` (R121). -/
def sumOf (u v : Word) : Word := BitVec.ofNat 32 (u.toNat + v.toNat)

/-- `(u * v) mod 2^32` (R122). -/
def productOf (u v : Word) : Word := BitVec.ofNat 32 (u.toNat * v.toNat)

/-- `u div v`, unsigned, rounding toward zero; a divisor of 0 is a fault (R123). -/
def quotientOf (u v : Word) : Except Cause Word :=
  if v = 0#32 then .error .divideByZero else .ok (BitVec.ofNat 32 (u.toNat / v.toNat))

/-- `~(u & v)` (R124). -/
def nandOf (u v : Word) : Word := ~~~(u &&& v)

/-- What IN writes: the byte zero-extended, or all ones for end of stream
(spec/43_control_io.md R162). -/
def inputWord (item : Option Byte) : Word :=
  match item with
  | some b => b.setWidth 32
  | none => 0xFFFFFFFF#32

end Sys2Proof.Machine
end

