-- ==== Sys2Proof/Machine/Flags.lean ====
section
/-! DEFINITION. The block has no flags (spec/10_state.md R17); this file holds the two tests of a register's value that take their place. -/

namespace Sys2Proof.Machine

/-- The condition of CMOV: the register is not zero (R17, spec/41_register_ops.md R120). -/
def condHolds (v : Word) : Bool := v != 0#32

/-- The precondition of OUT: the value is below 256, a single byte; otherwise `OUTPUT_RANGE`
(spec/43_control_io.md R161). -/
def outputByte (v : Word) : Except Cause Byte :=
  if v.toNat < 256 then .ok (v.setWidth 8) else .error .outputRange

end Sys2Proof.Machine
end

