-- ==== Sys2Proof/Machine/ControlIo.lean ====
section
/-! DEFINITION. The meanings of HALT, OUT, IN and LOADP (spec/43_control_io.md). Each runs after the fetch has advanced the pc. -/

namespace Sys2Proof.Machine

/-- HALT (R160). -/
def execHalt (s : State) : Host.Outcome State Fault Refusal :=
  .next s.stop

/-- OUT (R161). -/
def execOut (c : Reg) (s : State) : Host.Outcome State Fault Refusal :=
  .next (s.finish (do
    let b ← outputByte (s.reg c)
    pure (s.send b)))

/-- IN (R162): end of stream is a value, not a fault. -/
def execInp (c : Reg) (s : State) : Host.Outcome State Fault Refusal :=
  .next (s.takeInput.setReg c (inputWord s.input.item))

/-- LOADP (R163): the target is not checked; it overwrites the advanced pc. -/
def execLoadp (b c : Reg) (s : State) : Host.Outcome State Fault Refusal :=
  .next (s.finish (do
    let m ← if s.reg b = 0#32 then pure s.mem else s.mem.replaceProgram (s.reg b)
    pure ((s.setMem m).setPc (s.reg c))))

end Sys2Proof.Machine
end

