-- ==== Sys2Proof/Machine/RegisterOps.lean ====
section
/-! DEFINITION. The meanings of CMOV, ADD, MUL, DIV, NAND and LV (spec/41_register_ops.md). Each runs after the fetch has advanced the pc. -/

namespace Sys2Proof.Machine

/-- CMOV (R120). -/
def execCmov (a b c : Reg) (s : State) : Host.Outcome State Fault Refusal :=
  .next (if condHolds (s.reg c) then s.setReg a (s.reg b) else s)

/-- ADD (R121). -/
def execAdd (a b c : Reg) (s : State) : Host.Outcome State Fault Refusal :=
  .next (s.setReg a (sumOf (s.reg b) (s.reg c)))

/-- MUL (R122). -/
def execMul (a b c : Reg) (s : State) : Host.Outcome State Fault Refusal :=
  .next (s.setReg a (productOf (s.reg b) (s.reg c)))

/-- DIV (R123). -/
def execDiv (a b c : Reg) (s : State) : Host.Outcome State Fault Refusal :=
  .next (s.finish (do
    let q ← quotientOf (s.reg b) (s.reg c)
    pure (s.setReg a q)))

/-- NAND (R124). -/
def execNand (a b c : Reg) (s : State) : Host.Outcome State Fault Refusal :=
  .next (s.setReg a (nandOf (s.reg b) (s.reg c)))

/-- LV (R125); the decoder gives the immediate zero-extended (spec/30_encoding.md R91). -/
def execLv (r : Reg) (imm : Word) (s : State) : Host.Outcome State Fault Refusal :=
  .next (s.setReg r imm)

end Sys2Proof.Machine
end

