-- ==== Sys2Proof/Machine/SegmentOps.lean ====
section
/-! DEFINITION. The meanings of SLOAD, SSTORE, MAP and UNMAP (spec/42_segment_ops.md). Each runs after the fetch has advanced the pc. -/

namespace Sys2Proof.Machine

/-- SLOAD (R141). -/
def execSload (a b c : Reg) (s : State) : Host.Outcome State Fault Refusal :=
  .next (s.finish (do
    let v ← s.mem.segRead (loadAddress s b c).1 (loadAddress s b c).2
    pure (s.setReg a v)))

/-- SSTORE (R142). -/
def execSstore (a b c : Reg) (s : State) : Host.Outcome State Fault Refusal :=
  .next (s.finish (do
    let m ← s.mem.segWrite (storeAddress s a b).1 (storeAddress s a b).2 (s.reg c)
    pure (s.setMem m)))

/-- MAP (R143): the size is read before the identifier is written. -/
def execMap (b c : Reg) (s : State) : Host.Outcome State Fault Refusal :=
  .next (s.finish (do
    let r ← s.mem.allocate (s.allocOk (s.reg c)) (s.reg c)
    pure ((s.setMem r.2).setReg b r.1)))

/-- UNMAP (R144). -/
def execUnmap (c : Reg) (s : State) : Host.Outcome State Fault Refusal :=
  .next (s.finish (do
    let m ← s.mem.release (s.reg c)
    pure (s.setMem m)))

end Sys2Proof.Machine
end

