-- ==== Sys2Proof/Machine/Fetch.lean ====
section
/-! DEFINITION. What the step cycle does around a handler: the two faults of fetch and dispatch, running a fetched word, and placing a word to be fetched (spec/40_step_dispatch.md R111, R115). -/

namespace Sys2Proof.Machine

/-- A fetch past the end of segment 0 (R111): the pc keeps its value and there is no word. -/
def State.fetchFault (s : State) (c : Cause) : State :=
  s.raise c s.pc none

/-- Dispatch of a word with opcode 14 or 15 (R115): no handler runs, and the pc has advanced. -/
def State.invalidFault (s : State) (w : Word) : State :=
  s.advance.raise .invalidOpcode s.pc (some w)

/-- What a step does with the word it fetched at `s.pc` (R112 to R115). -/
def runWord (w : Word) (s : State) : Host.Outcome State Fault Refusal :=
  match decode w with
  | .instr i => exec i s.advance
  | .invalid _ => .next (s.invalidFault w)

/-- A segment with word `off` set, lengthened with zeros to hold it if it was shorter. -/
def Segment.withWord (g : Segment) (off : Nat) (v : Word) : Segment :=
  { g with len := max g.len (off + 1) }.setWord off v

/-- The store with a word placed at offset `off` of segment 0 from outside the machine. -/
def Memory.placeWord (m : Memory) (off v : Word) : Memory :=
  m.setSegment 0#32 (((m.segment 0#32).getD (Segment.zeros 0)).withWord off.toNat v)

end Sys2Proof.Machine
end

