-- ==== Sys2Proof/Machine/Step.lean ====
section
/-! DEFINITION. One step of the block: fetch, advance, decode, dispatch (spec/40_step_dispatch.md R110). -/

namespace Sys2Proof.Machine

/-- `Step()` (R110); in the two terminal run states there is no transition (R117). -/
def step (s : State) : Host.Outcome State Fault Refusal :=
  match s.run with
  | .halted => .fault .stepWhenHalted
  | .faulted => .fault .stepWhenFaulted
  | .running =>
    match s.mem.fetch s.pc with
    | .error c => .next (s.fetchFault c)
    | .ok w => runWord w s

/-- The state with a table word placed at word `pc` of segment 0, in the running state, so that
`step` fetches and runs it. It stands for a load from outside the machine (log entry 5); a state
that had stopped is made to run (log entry 8). -/
def State.withFetchWord (s : State) (nbits w : Nat) : State :=
  { s with
    run := .running
    fault := none
    mem := s.mem.placeWord s.pc (tableWord nbits w) }

end Sys2Proof.Machine
end

