-- ==== Sys2Proof/Machine/Assembler.lean ====
section
/-! DEFINITION. The spec's assembler lines: their text and their words (spec/30_encoding.md R98, R99). -/

namespace Sys2Proof.Machine

/-- A line of assembly: an instruction or the directive `.word v` (R98, R99). -/
inductive AsmLine where
  | instr (i : Instr)
  | word (v : Word)
  deriving DecidableEq, Repr

/-- The name of a register, `r0` to `r7` (R98). -/
def regText (r : Reg) : String := "r" ++ toString r.val

/-- An immediate or a data value, in decimal (R98 allows decimal or hexadecimal). -/
def valueText (v : Word) : String := toString v.toNat

/-- The text of an instruction (R98); an operand it does not use is left out. -/
def instrText (i : Instr) : String :=
  match i with
  | .cmov a b c => "cmov " ++ regText a ++ ", " ++ regText b ++ ", " ++ regText c
  | .sload a b c => "sload " ++ regText a ++ ", " ++ regText b ++ ", " ++ regText c
  | .sstore a b c => "sstore " ++ regText a ++ ", " ++ regText b ++ ", " ++ regText c
  | .add a b c => "add " ++ regText a ++ ", " ++ regText b ++ ", " ++ regText c
  | .mul a b c => "mul " ++ regText a ++ ", " ++ regText b ++ ", " ++ regText c
  | .div a b c => "div " ++ regText a ++ ", " ++ regText b ++ ", " ++ regText c
  | .nand a b c => "nand " ++ regText a ++ ", " ++ regText b ++ ", " ++ regText c
  | .halt => "halt"
  | .map b c => "map " ++ regText b ++ ", " ++ regText c
  | .unmap c => "unmap " ++ regText c
  | .out c => "out " ++ regText c
  | .inp c => "in " ++ regText c
  | .loadp b c => "loadp " ++ regText b ++ ", " ++ regText c
  | .lv r imm => "lv " ++ regText r ++ ", " ++ valueText imm

/-- The text of a line (R98). -/
def lineText (l : AsmLine) : String :=
  match l with
  | .instr i => instrText i
  | .word v => ".word " ++ valueText v

/-- The word of a line (R97, R98); an immediate that does not fit raises `ENCODING_OVERFLOW`. -/
def lineWord (l : AsmLine) : Except Cause Word :=
  match l with
  | .instr i => encode i
  | .word v => .ok v

/-- The program image of a list of lines: each line is the next word (R98). -/
def assemble (ls : List AsmLine) : Except Cause (List Word) := ls.mapM lineWord

end Sys2Proof.Machine
end

