-- ==== Sys2Proof/Machine/HostPort.lean ====
section
/-! DEFINITION. The host's side of the block: loading an image, the answer of a step, the drive loop, the status read (spec/10_state.md R30 to R36, spec/70_reset_and_hazards.md R230 to R237). -/

namespace Sys2Proof.Machine

/-- Why `Load` refuses an image (spec/70_reset_and_hazards.md R234); no run exists then. -/
inductive LoadRefusal where
  | lengthNotMultipleOf4
  | imageTooLong
  deriving DecidableEq, Repr

/-- Four bytes of the image as one word, the first the most significant (R233). -/
def wordOfBytes (b0 b1 b2 b3 : Byte) : Word :=
  BitVec.ofNat 32 (b0.toNat * 2 ^ 24 + b1.toNat * 2 ^ 16 + b2.toNat * 2 ^ 8 + b3.toNat)

/-- The word sequence of an image (R233); an image whose length is not a multiple of 4 has
none (R234). -/
def imageWords : List Byte → Except LoadRefusal (List Word)
  | [] => .ok []
  | b0 :: b1 :: b2 :: b3 :: rest =>
    match imageWords rest with
    | .ok ws => .ok (wordOfBytes b0 b1 b2 b3 :: ws)
    | .error e => .error e
  | _ => .error .lengthNotMultipleOf4

/-- A byte source as the host connects it (R237 3), nothing read from it yet: the open source, or
the whole list of bytes of the spec's reference environment. DESIGN CHOICE (log entry 3). -/
inductive HostInput where
  | oracle
  | bytes (items : List Byte)
  deriving DecidableEq, Repr

/-- The source at its first item, where reset puts it (R235). -/
def HostInput.start (input : HostInput) : InputSource :=
  match input with
  | .oracle => .oracle 0
  | .bytes items => .bytes items

/-- The reset state with a program, and with the input source, at its first item, and the
allocation predicate the host connects (spec/10_state.md R31, spec/70_reset_and_hazards.md R230 to
R232, R235, R237). -/
def State.boot (words : List Word) (input : HostInput) (alloc : AllocPolicy) : State :=
  { State.reset with mem := Memory.create words, input := input.start, alloc := alloc }

/-- `Load(words)` (spec/10_state.md R31); more than 2^32 - 1 words are refused
(spec/70_reset_and_hazards.md R234). It makes a machine from nothing, so no running machine can be
reloaded. -/
def load (words : List Word) (input : HostInput) (alloc : AllocPolicy) :
    Except LoadRefusal State :=
  if words.length < 2 ^ 32 then .ok (State.boot words input alloc) else .error .imageTooLong

/-- The image file as the host loads it: bytes to words, then `Load` (R237 1 and 2). -/
def loadImage (image : List Byte) (input : HostInput) (alloc : AllocPolicy) :
    Except LoadRefusal State := do
  let words ← imageWords image
  load words input alloc

/-- The answer of a `Step()` transaction (spec/10_state.md R32). -/
inductive StepResult where
  | continue
  | halt
  | fault (cause : Cause) (fpc : Word) (fword : Option Word)
  deriving DecidableEq, Repr

/-- The answer that belongs to the state a step leaves: `Continue` in Running, `Halt` in Halted,
`Fault` with the record in Faulted (R32). In Faulted the record is never `none` (R20). -/
def State.answer (s : State) : Option StepResult :=
  match s.run with
  | .running => some .continue
  | .halted => some .halt
  | .faulted => s.fault.map fun r => .fault r.cause r.fpc r.fword

/-- The drive loop under fuel (spec/70_reset_and_hazards.md R237, R242): steps are issued until one
answers `Halt` or `Fault`. -/
def drive : Nat → State → State
  | 0, s => s
  | n + 1, s =>
    match step s with
    | .next t => drive n t
    | .fault _ => s
    | .refused _ => s

/-- The status read (spec/10_state.md R36): once the run is over, the host may read all of it. -/
def State.status (s : State) : Option State :=
  if s.run = .running then none else some s

/-- Teardown (spec/20_memory.md R53): when the machine has stopped, all live segments are
released. No step follows, so nothing can observe it (log entry 9). -/
def State.teardown (s : State) : Option State :=
  if s.run = .running then none else some (s.setMem { s.mem with seg := [] })

end Sys2Proof.Machine
end

