-- ==== Sys2Proof/Safety.lean ====
section
/-! DEFINITION. The terms claims about the block are stated in: bit slices, frames, what taking a fault means, the invariants of a state. -/

namespace Sys2Proof.Machine

/-! Bit slices and decoding -/

/-- `w[hi:lo]`, the notation of spec/00_scope.md R7 and R8: bits hi down to lo, right-justified. -/
def bitsAt (w : Word) (hi lo : Nat) : Nat := w.toNat / 2 ^ lo % 2 ^ (hi + 1 - lo)

/-- Every word with opcode `op`, and A, B, C in the places of the three-register format
(spec/30_encoding.md R87), decodes to `mk A B C`. -/
def Decodes3R (op : Nat) (mk : Reg → Reg → Reg → Instr) : Prop :=
  ∀ (w : Word) (a b c : Reg), bitsAt w 31 28 = op → bitsAt w 8 6 = a.val → bitsAt w 5 3 = b.val →
    bitsAt w 2 0 = c.val → decode w = .instr (mk a b c)

/-! Frames -/

/-- Every word of every segment reads as before, and so does every other part of the store. -/
def SameMemory (s t : State) : Prop :=
  (∀ id off, t.mem.segRead id off = s.mem.segRead id off) ∧
    (∀ id, t.mem.segment id = s.mem.segment id) ∧
    t.mem.free = s.mem.free ∧ t.mem.nextFresh = s.mem.nextFresh

/-- Every register is as before. -/
def SameRegs (s t : State) : Prop := ∀ r, t.reg r = s.reg r

/-- Every register but `d` is as before. -/
def SameRegsBut (s t : State) (d : Reg) : Prop := ∀ r, r ≠ d → t.reg r = s.reg r

/-- The run state and the fault record are as before. -/
def SameControl (s t : State) : Prop := t.run = s.run ∧ t.fault = s.fault

/-- The byte channels and the allocation predicate are as before. -/
def SameIo (s t : State) : Prop := t.outq = s.outq ∧ t.input = s.input ∧ t.alloc = s.alloc

/-- `t` is `s` but for register `d`. -/
def ChangesOnlyReg (s t : State) (d : Reg) : Prop :=
  SameRegsBut s t d ∧ t.pc = s.pc ∧ SameMemory s t ∧ SameControl s t ∧ SameIo s t

/-- `t` is `s` but for its memory, whose change is said elsewhere. -/
def ChangesOnlyMemory (s t : State) : Prop :=
  SameRegs s t ∧ t.pc = s.pc ∧ SameControl s t ∧ SameIo s t

/-- Every word of every segment but segment `id` reads as before, and `id` is the only identifier
whose segment, or whose being unmapped, can differ. -/
def SameSegmentsBut (s t : State) (id : Word) : Prop :=
  (∀ id' off, id' ≠ id → t.mem.segRead id' off = s.mem.segRead id' off) ∧
    ∀ id', id' ≠ id → t.mem.segment id' = s.mem.segment id'

/-- Segment `id` of `t` is mapped, has `size` words, and they are all 0. -/
def AllZeroSegment (t : State) (id size : Word) : Prop :=
  (∃ g, t.mem.segment id = some g ∧ g.len = size.toNat) ∧
    ∀ off, t.mem.segRead id off =
      if off.toNat < size.toNat then .ok 0#32 else .error .segmentOutOfBounds

/-- `t` is `s` after a handler's fault with cause `c` (spec/60_exceptions.md R203): the run state,
the record with the address and the word of the executing instruction, nothing else. -/
def TakesFault (s t : State) (c : Cause) : Prop :=
  t.run = .faulted ∧
    t.fault = some { cause := c, fpc := s.pc - 1#32, fword := s.currentWord } ∧
    SameRegs s t ∧ t.pc = s.pc ∧ SameMemory s t ∧ SameIo s t

/-- The block is running and its next step fetches the word `w`. -/
def Fetches (s : State) (w : Word) : Prop := s.run = .running ∧ s.mem.fetch s.pc = .ok w

/-! Invariants -/

/-- The invariants of the segment store (spec/20_memory.md R43), the bound on segment lengths (R41)
and the canonical form of the table. -/
structure Memory.Inv (m : Memory) : Prop where
  /-- The table and every segment are in canonical form, and no segment is longer than
  2^32 - 1 words (R41). -/
  canonical : m.wf = true
  /-- I1: identifier 0 is mapped. -/
  programMapped : m.segment 0#32 ≠ none
  /-- I2: 0 is not in the free pool. -/
  zeroNotFree : 0#32 ∉ m.free
  /-- I3: every identifier in the free pool is unmapped. -/
  freeUnmapped : ∀ id ∈ m.free, m.segment id = none
  /-- I3: the free pool has no duplicates. -/
  freeNodup : m.free.Nodup
  /-- Every identifier in the free pool has been minted: a consequence of R47 and R49 that R43 does
  not list (log entry 13), without which I4 would not be kept from states no run reaches. -/
  freeMinted : ∀ id ∈ m.free, id.toNat < m.nextFresh
  /-- I4: `1 <= next_fresh`. -/
  nextPositive : 1 ≤ m.nextFresh
  /-- I4: `next_fresh <= 2^32`. -/
  nextBounded : m.nextFresh ≤ 2 ^ 32
  /-- I4: every identifier from `next_fresh` up is unmapped. -/
  freshUnmapped : ∀ id : Word, m.nextFresh ≤ id.toNat → m.segment id = none
  /-- I5: every identifier from 1 up to `next_fresh` is mapped or in the free pool; with
  `freeUnmapped`, never both. -/
  mintedAccounted : ∀ id : Word, 1 ≤ id.toNat → id.toNat < m.nextFresh →
    m.segment id ≠ none ∨ id ∈ m.free
  /-- I6: no two mapped segments share an identifier. -/
  idsDistinct : (m.seg.map Prod.fst).Nodup

/-- The fault record is `none` exactly when the run state is not Faulted (spec/10_state.md R20); a
record has no word exactly when the fetch faulted (R20), and its cause is one a run can raise
(spec/60_exceptions.md R215). -/
def State.RecordConsistent (s : State) : Prop :=
  (s.fault = none ↔ s.run ≠ .faulted) ∧
    ∀ r, s.fault = some r →
      (r.fword = none ↔ r.cause = .fetchOutOfBounds) ∧
        r.cause ≠ .encodingOverflow ∧ r.cause ≠ .codecContract

/-- A legal state of the block: the store's invariants and a consistent fault record. -/
def State.Inv (s : State) : Prop := s.mem.Inv ∧ s.RecordConsistent

/-! Sequences of store operations, for claims about the order in which identifiers come back -/

/-- Release identifiers one after another, the first first. -/
def Memory.releaseAll : Memory → List Word → Except Cause Memory
  | m, [] => .ok m
  | m, id :: ids =>
    match m.release id with
    | .ok m' => m'.releaseAll ids
    | .error c => .error c

/-- Allocate segments of the given sizes one after another, where storage suffices; the
identifiers in the order they are returned. -/
def Memory.allocateAll : Memory → List Word → Except Cause (List Word × Memory)
  | m, [] => .ok ([], m)
  | m, n :: ns =>
    match m.allocate true n with
    | .error c => .error c
    | .ok (id, m') =>
      match m'.allocateAll ns with
      | .error c => .error c
      | .ok (ids, m'') => .ok (id :: ids, m'')

end Sys2Proof.Machine
end

