-- ==== Sys2Proof/Certificates/Slice0/Obligations.lean ====
section
/-! DEFINITION. The statements for the provers. Each cites the rules of spec/ it formalises; OBLIGATIONS.json lists them. -/

open Sys2Proof Sys2Proof.Machine

/-! ## The codec, the decoder and the encoder (spec/30_encoding.md) -/

/-- R80: a field read inside the word is the word shifted right and masked; its bits are the
word's bits from the offset up. -/
def Obligations.ExtractReadsTheField : Prop :=
  ∀ (w : Word) (width offset : Nat), width + offset ≤ 32 →
    ∃ v, extractUnsigned w width offset = .ok v ∧ v = w.toNat / 2 ^ offset % 2 ^ width ∧
      v < 2 ^ width ∧ ∀ i, v.testBit i = (decide (i < width) && w.getLsbD (offset + i))

/-- R81: a codec call past bit 31 raises CODEC_CONTRACT, whatever the value; and the decoder's
fields are all codec calls inside the word. -/
def Obligations.CodecContractIsRaised : Prop :=
  (∀ (w : Word) (width offset : Nat), 32 < width + offset →
    extractUnsigned w width offset = .error .codecContract ∧
      ∀ v, packUnsigned w width offset v = .error .codecContract) ∧
  ∀ w : Word,
    extractUnsigned w 4 28 = .ok (opcodeOf w) ∧ extractUnsigned w 3 6 = .ok (fieldA w).val ∧
    extractUnsigned w 3 3 = .ok (fieldB w).val ∧ extractUnsigned w 3 0 = .ok (fieldC w).val ∧
    extractUnsigned w 3 25 = .ok (fieldR w).val ∧ extractUnsigned w 25 0 = .ok (fieldImm w).toNat

/-- R82: a value fits a width exactly when it is below the power of two; the three cases. -/
def Obligations.FitsMeansBelowThePower : Prop :=
  (∀ value width : Nat, fitsUnsigned value width = true ↔ value < 2 ^ width) ∧
  fitsUnsigned 0 0 = true ∧ fitsUnsigned 1 0 = false ∧
  ∀ (v : Word) (width : Nat), 32 ≤ width → fitsUnsigned v.toNat width = true

/-- R83: packing puts the value's bits into the field and copies every other bit; a value that
does not fit raises ENCODING_OVERFLOW and a field outside the word CODEC_CONTRACT. -/
def Obligations.PackReplacesOnlyTheField : Prop :=
  ∀ (w : Word) (width offset value : Nat),
    (width + offset ≤ 32 → value < 2 ^ width →
      ∃ r, packUnsigned w width offset value = .ok r ∧ ∀ i, i < 32 →
        r.getLsbD i = if offset ≤ i ∧ i < offset + width then value.testBit (i - offset)
          else w.getLsbD i) ∧
    (width + offset ≤ 32 → 2 ^ width ≤ value →
      packUnsigned w width offset value = .error .encodingOverflow) ∧
    (32 < width + offset → packUnsigned w width offset value = .error .codecContract)

/-- R85: the round-trip law of the codec. -/
def Obligations.PackThenExtractGivesTheValue : Prop :=
  ∀ (w : Word) (width offset value : Nat), width + offset ≤ 32 → value < 2 ^ width →
    ∃ r, packUnsigned w width offset value = .ok r ∧
      extractUnsigned r width offset = .ok value ∧
      ∀ i, i < 32 → (i < offset ∨ offset + width ≤ i) → r.getLsbD i = w.getLsbD i

/-- R87, R88, R89, R90, R92: what every word decodes to, by its opcode, in bit slices. -/
def Obligations.DecoderFollowsTheOpcodeMap : Prop :=
  Decodes3R 0 (fun a b c => .cmov a b c) ∧ Decodes3R 1 (fun a b c => .sload a b c) ∧
  Decodes3R 2 (fun a b c => .sstore a b c) ∧ Decodes3R 3 (fun a b c => .add a b c) ∧
  Decodes3R 4 (fun a b c => .mul a b c) ∧ Decodes3R 5 (fun a b c => .div a b c) ∧
  Decodes3R 6 (fun a b c => .nand a b c) ∧ Decodes3R 7 (fun _ _ _ => .halt) ∧
  Decodes3R 8 (fun _ b c => .map b c) ∧ Decodes3R 9 (fun _ _ c => .unmap c) ∧
  Decodes3R 10 (fun _ _ c => .out c) ∧ Decodes3R 11 (fun _ _ c => .inp c) ∧
  Decodes3R 12 (fun _ b c => .loadp b c) ∧
  (∀ (w : Word) (r : Reg) (imm : Word), bitsAt w 31 28 = 13 → bitsAt w 27 25 = r.val →
    bitsAt w 24 0 = imm.toNat → decode w = .instr (.lv r imm)) ∧
  ∀ w : Word, 14 ≤ bitsAt w 31 28 → decode w = .invalid (bitsAt w 31 28)

/-- R94: words that agree on the fields their instruction uses decode alike, whatever their other
bits, and the other bits never make a word invalid. -/
def Obligations.IgnoredBitsDoNotMatter : Prop :=
  ∀ w w' : Word, bitsAt w 31 28 = bitsAt w' 31 28 →
    (bitsAt w 31 28 ≤ 6 → bitsAt w 8 0 = bitsAt w' 8 0 → decode w = decode w') ∧
    (bitsAt w 31 28 = 7 → decode w = decode w') ∧
    (bitsAt w 31 28 = 8 ∨ bitsAt w 31 28 = 12 → bitsAt w 5 0 = bitsAt w' 5 0 →
      decode w = decode w') ∧
    (9 ≤ bitsAt w 31 28 → bitsAt w 31 28 ≤ 11 → bitsAt w 2 0 = bitsAt w' 2 0 →
      decode w = decode w') ∧
    (bitsAt w 31 28 ≤ 13 → ∃ i, decode w = .instr i)

/-- The encoders' closed forms, and the overflow of a field that does not fit. -/
def Obligations.EncodersGiveTheClosedForms : Prop :=
  (∀ op a b c : Nat, op < 16 → a < 8 → b < 8 → c < 8 →
    ∃ w, encode3R op a b c = .ok w ∧ w.toNat = op * 2 ^ 28 + a * 2 ^ 6 + b * 2 ^ 3 + c) ∧
  (∀ op a b c : Nat, (16 ≤ op ∨ 8 ≤ a ∨ 8 ≤ b ∨ 8 ≤ c) →
    encode3R op a b c = .error .encodingOverflow) ∧
  (∀ r imm : Nat, r < 8 → imm < 2 ^ 25 →
    ∃ w, encodeLI r imm = .ok w ∧ w.toNat = 0xD0000000 + r * 2 ^ 25 + imm) ∧
  ∀ r imm : Nat, (8 ≤ r ∨ 2 ^ 25 ≤ imm) → encodeLI r imm = .error .encodingOverflow

/-- Every well-formed instruction, with every operand at every value it admits, is given back by
decoding its encoding; an ill-formed one has no encoding; and a word that decodes is, but for bits
that are ignored, the encoding of what it decodes to. -/
def Obligations.DecodeInvertsEncode : Prop :=
  (∀ i : Instr, i.wellFormed = true → ∃ w, encode i = .ok w ∧ decode w = .instr i) ∧
  (∀ i : Instr, i.wellFormed = false → encode i = .error .encodingOverflow) ∧
  ∀ (w : Word) (i : Instr), decode w = .instr i →
    i.wellFormed = true ∧ ∃ w', encode i = .ok w' ∧ decode w' = .instr i ∧ w' &&& w = w'

/-- Words of spec/95_test_vectors.md (E-1 to E-10 and programs P2, P3), one for each family at
least, decode to the instructions they stand for. -/
def Obligations.WrittenOutWordsDecode : Prop :=
  decode 0x00000053#32 = .instr (.cmov 1 2 3) ∧ decode 0x3FFFFE53#32 = .instr (.add 1 2 3) ∧
  decode 0x7FFFFFFF#32 = .instr .halt ∧ decode 0xD0008F8F#32 = .instr (.lv 0 0x8F8F) ∧
  decode 0xDFFFFFFF#32 = .instr (.lv 7 0x1FFFFFF) ∧ decode 0x80000013#32 = .instr (.map 2 3) ∧
  decode 0xC0000013#32 = .instr (.loadp 2 3) ∧ decode 0x2000005C#32 = .instr (.sstore 1 3 4) ∧
  decode 0x1000014B#32 = .instr (.sload 5 1 3) ∧ decode 0x90000001#32 = .instr (.unmap 1) ∧
  decode 0xA0000004#32 = .instr (.out 4) ∧ decode 0xE0000000#32 = .invalid 14 ∧
  decode 0xF1234567#32 = .invalid 15

/-- Lines of assembly become words in order: an instruction whose fields fit becomes a word that
decodes to it, `.word v` becomes v, and an immediate that does not fit is an overflow. -/
def Obligations.AssembledProgramDecodesToItsLines : Prop :=
  (∀ ls : List AsmLine, (∀ i, AsmLine.instr i ∈ ls → i.wellFormed = true) →
    ∃ ws, assemble ls = .ok ws ∧ ws.length = ls.length ∧
      ∀ (k : Nat) (l : AsmLine) (w : Word), ls[k]? = some l → ws[k]? = some w →
        match l with
        | .instr i => decode w = .instr i
        | .word v => w = v) ∧
  ∀ (ls : List AsmLine) (i : Instr), AsmLine.instr i ∈ ls → i.wellFormed = false →
    assemble ls = .error .encodingOverflow

/-! ## Register operations (spec/41_register_ops.md) -/

/-- R120, CMOV. -/
def Obligations.CmovMovesWhenConditionNonzero : Prop :=
  Decodes3R 0 (fun a b c => .cmov a b c) ∧
  ∀ (a b c : Reg) (s : State), ∃ t, exec (.cmov a b c) s = .next t ∧
    t.reg a = (if s.reg c = 0#32 then s.reg a else s.reg b) ∧ ChangesOnlyReg s t a

/-- R121, ADD. -/
def Obligations.AddIsTheSumModulo : Prop :=
  Decodes3R 3 (fun a b c => .add a b c) ∧
  ∀ (a b c : Reg) (s : State), ∃ t, exec (.add a b c) s = .next t ∧
    (t.reg a).toNat = ((s.reg b).toNat + (s.reg c).toNat) % 2 ^ 32 ∧ ChangesOnlyReg s t a

/-- R122, MUL. -/
def Obligations.MulIsTheProductModulo : Prop :=
  Decodes3R 4 (fun a b c => .mul a b c) ∧
  ∀ (a b c : Reg) (s : State), ∃ t, exec (.mul a b c) s = .next t ∧
    (t.reg a).toNat = ((s.reg b).toNat * (s.reg c).toNat) % 2 ^ 32 ∧ ChangesOnlyReg s t a

/-- R123, DIV: the unsigned quotient, or DIVIDE_BY_ZERO with no register written. -/
def Obligations.DivIsTheQuotientOrFaults : Prop :=
  Decodes3R 5 (fun a b c => .div a b c) ∧
  ∀ (a b c : Reg) (s : State),
    (s.reg c ≠ 0#32 → ∃ t, exec (.div a b c) s = .next t ∧
      (t.reg a).toNat = (s.reg b).toNat / (s.reg c).toNat ∧ ChangesOnlyReg s t a) ∧
    (s.reg c = 0#32 → ∃ t, exec (.div a b c) s = .next t ∧ TakesFault s t .divideByZero)

/-- R124, NAND, bit by bit. -/
def Obligations.NandComplementsTheAnd : Prop :=
  Decodes3R 6 (fun a b c => .nand a b c) ∧
  ∀ (a b c : Reg) (s : State), ∃ t, exec (.nand a b c) s = .next t ∧
    (∀ i, i < 32 → (t.reg a).getLsbD i = !((s.reg b).getLsbD i && (s.reg c).getLsbD i)) ∧
    ChangesOnlyReg s t a

/-- R125, LV: every LI word decodes to an LV whose register takes bits [24:0], zero-extended; so
does every LV whose immediate has 25 bits; a wider immediate has no word. -/
def Obligations.LvLoadsTheImmediate : Prop :=
  (∀ (w : Word) (r : Reg), bitsAt w 31 28 = 13 → bitsAt w 27 25 = r.val →
    ∃ imm, decode w = .instr (.lv r imm) ∧ ∀ s : State, ∃ t, exec (.lv r imm) s = .next t ∧
      (t.reg r).toNat = bitsAt w 24 0 ∧ ChangesOnlyReg s t r) ∧
  (∀ (r : Reg) (imm : Word) (s : State), imm.toNat < 2 ^ 25 →
    ∃ t, exec (.lv r imm) s = .next t ∧ t.reg r = imm ∧ ChangesOnlyReg s t r) ∧
  ∀ r imm : Nat, 2 ^ 25 ≤ imm → encodeLI r imm = .error .encodingOverflow

/-- The model's choice (log entry 11), for immediates that no word has: exec of an LV whose
immediate is 2^25 or more writes it as it is, and no word decodes to such an LV. -/
def Obligations.LvWithoutAnEncodingIsNeverDecoded : Prop :=
  ∀ (r : Reg) (imm : Word), 2 ^ 25 ≤ imm.toNat →
    (∀ w : Word, decode w ≠ .instr (.lv r imm)) ∧
    ∀ s : State, ∃ t, exec (.lv r imm) s = .next t ∧ t.reg r = imm ∧ ChangesOnlyReg s t r

/-! ## Segment operations (spec/42_segment_ops.md) -/

/-- R141, SLOAD. -/
def Obligations.SloadReadsTheAddressedWord : Prop :=
  Decodes3R 1 (fun a b c => .sload a b c) ∧
  ∀ (a b c : Reg) (s : State), loadAddress s b c = (s.reg b, s.reg c) ∧
    (∀ g, s.mem.segment (s.reg b) = some g → (s.reg c).toNat < g.len →
      ∃ t, exec (.sload a b c) s = .next t ∧ t.reg a = g.word (s.reg c).toNat ∧
        ChangesOnlyReg s t a) ∧
    (s.mem.segment (s.reg b) = none →
      ∃ t, exec (.sload a b c) s = .next t ∧ TakesFault s t .unmappedSegment) ∧
    (∀ g, s.mem.segment (s.reg b) = some g → g.len ≤ (s.reg c).toNat →
      ∃ t, exec (.sload a b c) s = .next t ∧ TakesFault s t .segmentOutOfBounds)

/-- R142, SSTORE: the addressed word takes the value, and every other word of every segment reads
as before. -/
def Obligations.SstoreWritesTheAddressedWord : Prop :=
  Decodes3R 2 (fun a b c => .sstore a b c) ∧
  ∀ (a b c : Reg) (s : State), storeAddress s a b = (s.reg a, s.reg b) ∧
    ∀ id off, storeAddress s a b = (id, off) →
      (∀ g, s.mem.segment id = some g → off.toNat < g.len →
        ∃ t, exec (.sstore a b c) s = .next t ∧ t.mem.segRead id off = .ok (s.reg c) ∧
          (∀ id' off', (id', off') ≠ (id, off) →
            t.mem.segRead id' off' = s.mem.segRead id' off') ∧
          SameSegmentsBut s t id ∧ t.mem.free = s.mem.free ∧
          t.mem.nextFresh = s.mem.nextFresh ∧ ChangesOnlyMemory s t) ∧
      (s.mem.segment id = none →
        ∃ t, exec (.sstore a b c) s = .next t ∧ TakesFault s t .unmappedSegment) ∧
      (∀ g, s.mem.segment id = some g → g.len ≤ off.toNat →
        ∃ t, exec (.sstore a b c) s = .next t ∧ TakesFault s t .segmentOutOfBounds)

/-- R143, MAP: the new identifier is the head of the free pool or the next fresh one; under the
store's invariants it is never 0 and never mapped. `alloc_ok` is a premise, as R48 asks. -/
def Obligations.MapGivesANewZeroSegment : Prop :=
  Decodes3R 8 (fun _ b c => .map b c) ∧
  ∀ (b c : Reg) (s : State),
    (∀ id rest, s.mem.free = id :: rest → s.allocOk (s.reg c) = true →
      ∃ t, exec (.map b c) s = .next t ∧ t.reg b = id ∧ AllZeroSegment t id (s.reg c) ∧
        SameSegmentsBut s t id ∧ t.mem.free = rest ∧ t.mem.nextFresh = s.mem.nextFresh ∧
        SameRegsBut s t b ∧ t.pc = s.pc ∧ SameControl s t ∧ SameIo s t ∧
        (s.mem.Inv → id ≠ 0#32 ∧ s.mem.segment id = none)) ∧
    (∀ id : Word, s.mem.free = [] → id.toNat = s.mem.nextFresh → s.allocOk (s.reg c) = true →
      ∃ t, exec (.map b c) s = .next t ∧ t.reg b = id ∧ AllZeroSegment t id (s.reg c) ∧
        SameSegmentsBut s t id ∧ t.mem.free = [] ∧ t.mem.nextFresh = s.mem.nextFresh + 1 ∧
        SameRegsBut s t b ∧ t.pc = s.pc ∧ SameControl s t ∧ SameIo s t ∧
        (s.mem.Inv → id ≠ 0#32 ∧ s.mem.segment id = none)) ∧
    ((s.mem.free = [] ∧ 2 ^ 32 ≤ s.mem.nextFresh) ∨ s.allocOk (s.reg c) = false →
      ∃ t, exec (.map b c) s = .next t ∧ TakesFault s t .allocationFailure)

/-- R144, UNMAP. -/
def Obligations.UnmapReleasesTheSegment : Prop :=
  Decodes3R 9 (fun _ _ c => .unmap c) ∧
  ∀ (c : Reg) (s : State),
    (∀ g, s.reg c ≠ 0#32 → s.mem.segment (s.reg c) = some g →
      ∃ t, exec (.unmap c) s = .next t ∧ t.mem.segment (s.reg c) = none ∧
        t.mem.free = s.reg c :: s.mem.free ∧ t.mem.nextFresh = s.mem.nextFresh ∧
        SameSegmentsBut s t (s.reg c) ∧ ChangesOnlyMemory s t) ∧
    (s.reg c = 0#32 →
      ∃ t, exec (.unmap c) s = .next t ∧ TakesFault s t .releaseProgramSegment) ∧
    (s.reg c ≠ 0#32 → s.mem.segment (s.reg c) = none →
      ∃ t, exec (.unmap c) s = .next t ∧ TakesFault s t .unmappedSegment)

/-! ## Control and I/O (spec/43_control_io.md) -/

/-- R160, HALT: the run state becomes Halted and nothing else changes. -/
def Obligations.HaltStopsTheRun : Prop :=
  (∀ w : Word, bitsAt w 31 28 = 7 → decode w = .instr .halt) ∧
  ∀ s : State, ∃ t, exec .halt s = .next t ∧ t.run = .halted ∧ t.fault = s.fault ∧
    SameRegs s t ∧ t.pc = s.pc ∧ SameMemory s t ∧ SameIo s t

/-- R161, OUT. -/
def Obligations.OutSendsOneByte : Prop :=
  Decodes3R 10 (fun _ _ c => .out c) ∧
  ∀ (c : Reg) (s : State),
    ((s.reg c).toNat < 256 → ∃ t b, exec (.out c) s = .next t ∧ t.outq = s.outq ++ [b] ∧
      b.toNat = (s.reg c).toNat ∧ SameRegs s t ∧ t.pc = s.pc ∧ SameMemory s t ∧
      SameControl s t ∧ t.input = s.input ∧ t.alloc = s.alloc) ∧
    (256 ≤ (s.reg c).toNat →
      ∃ t, exec (.out c) s = .next t ∧ TakesFault s t .outputRange)

/-- R162, IN: the item is whatever the source gives, for every source, and it is taken once. -/
def Obligations.InTakesOneItem : Prop :=
  Decodes3R 11 (fun _ _ c => .inp c) ∧
  ∀ (c : Reg) (s : State), ∃ t, exec (.inp c) s = .next t ∧
    (∀ b, s.input.item = some b → (t.reg c).toNat = b.toNat) ∧
    (s.input.item = none → t.reg c = 0xFFFFFFFF#32) ∧
    t.input = s.input.taken ∧ SameRegsBut s t c ∧ t.pc = s.pc ∧ SameMemory s t ∧
    SameControl s t ∧ t.outq = s.outq ∧ t.alloc = s.alloc

/-- R163, LOADP: with x[B] = 0 only a jump; otherwise segment 0 becomes a copy of segment x[B]. -/
def Obligations.LoadpReplacesTheProgramAndJumps : Prop :=
  Decodes3R 12 (fun _ b c => .loadp b c) ∧
  ∀ (b c : Reg) (s : State),
    (s.reg b = 0#32 → ∃ t, exec (.loadp b c) s = .next t ∧ t.pc = s.reg c ∧ SameRegs s t ∧
      SameMemory s t ∧ SameControl s t ∧ SameIo s t) ∧
    (∀ g, s.reg b ≠ 0#32 → s.mem.segment (s.reg b) = some g →
      ∃ t, exec (.loadp b c) s = .next t ∧ t.pc = s.reg c ∧ t.mem.segment 0#32 = some g ∧
        (∀ off, t.mem.segRead 0#32 off = s.mem.segRead (s.reg b) off) ∧
        SameSegmentsBut s t 0#32 ∧ t.mem.free = s.mem.free ∧
        t.mem.nextFresh = s.mem.nextFresh ∧ SameRegs s t ∧ SameControl s t ∧ SameIo s t) ∧
    (s.reg b ≠ 0#32 → s.mem.segment (s.reg b) = none →
      ∃ t, exec (.loadp b c) s = .next t ∧ TakesFault s t .unmappedSegment)

/-! ## The segment store (spec/20_memory.md) -/

/-- R45: the three outcomes of a read, and a fetch as the read of segment 0 with its own fault. -/
def Obligations.SegReadTranslatesAndChecks : Prop :=
  ∀ (m : Memory) (id off : Word),
    (m.segment id = none → m.segRead id off = .error .unmappedSegment) ∧
    (∀ g, m.segment id = some g → g.len ≤ off.toNat →
      m.segRead id off = .error .segmentOutOfBounds) ∧
    (∀ g, m.segment id = some g → off.toNat < g.len →
      m.segRead id off = .ok (g.word off.toNat)) ∧
    ∀ g, m.segment 0#32 = some g →
      m.fetch off = if off.toNat < g.len then .ok (g.word off.toNat) else .error .fetchOutOfBounds

/-- R46, R64: a write is read back, no other word of any segment changes, and a faulting write
answers no store. -/
def Obligations.SegWriteIsReadBackAndChangesNothingElse : Prop :=
  ∀ (m : Memory) (id off v : Word),
    (∀ g, m.segment id = some g → off.toNat < g.len →
      ∃ m', m.segWrite id off v = .ok m' ∧ m'.segRead id off = .ok v ∧
        (∀ id' off', (id', off') ≠ (id, off) → m'.segRead id' off' = m.segRead id' off') ∧
        (∀ id', id' ≠ id → m'.segment id' = m.segment id') ∧
        m'.free = m.free ∧ m'.nextFresh = m.nextFresh) ∧
    (m.segment id = none → m.segWrite id off v = .error .unmappedSegment) ∧
    (∀ g, m.segment id = some g → g.len ≤ off.toNat →
      m.segWrite id off v = .error .segmentOutOfBounds)

/-- R47: which identifier an allocation returns, and that the new segment is all zeros; under the
invariants the identifier was unmapped and lies in the 32-bit space. -/
def Obligations.AllocateReusesThenMints : Prop :=
  ∀ (m : Memory) (size : Word),
    (∀ id rest, m.free = id :: rest → ∃ m', m.allocate true size = .ok (id, m') ∧
      m'.segment id = some (Segment.zeros size.toNat) ∧
      (∀ off, off.toNat < size.toNat → m'.segRead id off = .ok 0#32) ∧
      (∀ id', id' ≠ id → m'.segment id' = m.segment id') ∧
      m'.free = rest ∧ m'.nextFresh = m.nextFresh ∧ (m.Inv → m.segment id = none)) ∧
    (m.free = [] → m.nextFresh ≤ 2 ^ 32 - 1 → ∃ id m', m.allocate true size = .ok (id, m') ∧
      id.toNat = m.nextFresh ∧ m'.segment id = some (Segment.zeros size.toNat) ∧
      (∀ off, off.toNat < size.toNat → m'.segRead id off = .ok 0#32) ∧
      (∀ id', id' ≠ id → m'.segment id' = m.segment id') ∧
      m'.free = [] ∧ m'.nextFresh = m.nextFresh + 1 ∧ (m.Inv → m.segment id = none)) ∧
    (m.free = [] → 2 ^ 32 ≤ m.nextFresh → ∀ ok, m.allocate ok size = .error .allocationFailure) ∧
    m.allocate false size = .error .allocationFailure

/-- R49, R50: release. -/
def Obligations.ReleaseUnmapsAndPushes : Prop :=
  ∀ (m : Memory) (id : Word),
    (∀ g, id ≠ 0#32 → m.segment id = some g → ∃ m', m.release id = .ok m' ∧
      m'.segment id = none ∧ (∀ id', id' ≠ id → m'.segment id' = m.segment id') ∧
      m'.free = id :: m.free ∧ m'.nextFresh = m.nextFresh) ∧
    (id = 0#32 → m.release id = .error .releaseProgramSegment) ∧
    (id ≠ 0#32 → m.segment id = none → m.release id = .error .unmappedSegment)

/-- R51: program replacement copies, and the copy is independent: a later write to either segment
does not change a word of the other. -/
def Obligations.ReplaceProgramCopiesIndependently : Prop :=
  ∀ (m : Memory) (id : Word),
    (m.segment id = none → m.replaceProgram id = .error .unmappedSegment) ∧
    (∀ g, m.segment id = some g → id = 0#32 → m.replaceProgram id = .ok m) ∧
    ∀ g, m.segment id = some g → id ≠ 0#32 → ∃ m', m.replaceProgram id = .ok m' ∧
      m'.segment 0#32 = some g ∧ (∀ id', id' ≠ 0#32 → m'.segment id' = m.segment id') ∧
      m'.free = m.free ∧ m'.nextFresh = m.nextFresh ∧
      ∀ off v m'', (m'.segWrite 0#32 off v = .ok m'' → m''.segment id = some g) ∧
        (m'.segWrite id off v = .ok m'' → m''.segment 0#32 = some g)

/-- R52: the store a program starts with reads as the program's words. -/
def Obligations.CreateHoldsTheInitialWords : Prop :=
  ∀ ws : List Word,
    (∃ g, (Memory.create ws).segment 0#32 = some g ∧ g.len = ws.length) ∧
    (∀ (off : Word) (w : Word), ws[off.toNat]? = some w →
      (Memory.create ws).segRead 0#32 off = .ok w) ∧
    (∀ id : Word, id ≠ 0#32 → (Memory.create ws).segment id = none) ∧
    (Memory.create ws).free = [] ∧ (Memory.create ws).nextFresh = 1

/-- The stack discipline of the free pool: distinct mapped identifiers released one after another
come back in the reverse order, before any new identifier is minted. -/
def Obligations.ReleasedIdentifiersComeBackInReverse : Prop :=
  ∀ (m : Memory) (ids sizes : List Word), ids.Nodup →
    (∀ id ∈ ids, id ≠ 0#32 ∧ m.segment id ≠ none) → sizes.length = ids.length →
    ∃ m1 m2, m.releaseAll ids = .ok m1 ∧ m1.allocateAll sizes = .ok (ids.reverse, m2) ∧
      m2.free = m.free ∧ m2.nextFresh = m.nextFresh ∧
      ∀ id, id ∉ ids → m2.segment id = m.segment id

/-! ## The step cycle (spec/40_step_dispatch.md, spec/10_state.md) -/

/-- A step whose word decodes to an instruction is that instruction's handler, run on the state
whose pc has advanced by one word. -/
def Obligations.StepRunsTheDecodedInstruction : Prop :=
  ∀ (s : State) (w : Word) (i : Instr), s.run = .running → s.mem.fetch s.pc = .ok w →
    decode w = .instr i →
    i.wellFormed = true ∧ step s = exec i { s with pc := s.pc + 1#32 }

/-- R111: a fetch at or past the end of segment 0 faults and changes nothing but the run state and
the record; the empty image does so at once. -/
def Obligations.FetchPastTheEndFaults : Prop :=
  (∀ (s : State) (g : Segment), s.run = .running → s.mem.segment 0#32 = some g →
    g.len ≤ s.pc.toNat → ∃ t, step s = .next t ∧ t.run = .faulted ∧
      t.fault = some { cause := .fetchOutOfBounds, fpc := s.pc, fword := none } ∧
      t.pc = s.pc ∧ SameRegs s t ∧ SameMemory s t ∧ SameIo s t) ∧
  (∀ (s : State) (g : Segment), s.mem.segment 0#32 = some g → s.pc.toNat < g.len →
    s.mem.fetch s.pc = .ok (g.word s.pc.toNat)) ∧
  ∀ input alloc, ∃ t, step (State.boot [] input alloc) = .next t ∧ t.run = .faulted ∧
    t.fault = some { cause := .fetchOutOfBounds, fpc := 0#32, fword := none }

/-- R95, R115: a word with opcode 14 or 15 faults, and only the pc has advanced. -/
def Obligations.InvalidOpcodeFaults : Prop :=
  ∀ (s : State) (w : Word), Fetches s w → 14 ≤ bitsAt w 31 28 →
    decode w = .invalid (bitsAt w 31 28) ∧ ∃ t, step s = .next t ∧ t.run = .faulted ∧
      t.fault = some { cause := .invalidOpcode, fpc := s.pc, fword := some w } ∧
      t.pc = s.pc + 1#32 ∧ SameRegs s t ∧ SameMemory s t ∧ SameIo s t

/-- R15: after a fetch the pc is one word on, except that a LOADP that does not fault sets it to
x[C]. -/
def Obligations.PcAdvancesUnlessLoadp : Prop :=
  ∀ (s t : State) (w : Word) (c : Reg), Fetches s w → bitsAt w 2 0 = c.val → step s = .next t →
    t.pc = if bitsAt w 31 28 = 12 ∧ t.run = .running then s.reg c else s.pc + 1#32

/-- R116: among steps that do not fault, exactly HALT stops the run. -/
def Obligations.OnlyHaltHalts : Prop :=
  ∀ (s t : State) (w : Word), Fetches s w → step s = .next t →
    (bitsAt w 31 28 = 7 → t.run = .halted ∧ t.answer = some .halt) ∧
    (bitsAt w 31 28 ≠ 7 → t.run ≠ .faulted → t.run = .running ∧ t.answer = some .continue)

/-- R117: no step in Halted or Faulted, which are told apart; in Running there always is one; the
drive loop leaves a stopped state as it is. -/
def Obligations.NoStepOnceStopped : Prop :=
  (∀ s : State, s.run = .halted → step s = .fault .stepWhenHalted) ∧
  (∀ s : State, s.run = .faulted → step s = .fault .stepWhenFaulted) ∧
  (∀ s : State, (∃ t, step s = .next t) ↔ s.run = .running) ∧
  ∀ (n : Nat) (s : State), s.run ≠ .running → drive n s = s

/-- No step is refused: every word has its meaning, and every instruction its handler. -/
def Obligations.StepIsNeverRefused : Prop :=
  ∀ (s : State) (r : Refusal), step s ≠ .refused r

/-- R32: the answer of a step belongs to the run state it leaves, and a fault is answered with
the record; only a running state steps. -/
def Obligations.StepAnswersItsRunState : Prop :=
  ∀ s t : State, step s = .next t → s.run = .running ∧
    (t.run = .running → t.answer = some .continue) ∧ (t.run = .halted → t.answer = some .halt) ∧
    (t.run = .faulted → ∃ r, t.fault = some r ∧
      t.answer = some (.fault r.cause r.fpc r.fword))

/-- R201, R203: a faulting step sets the run state and the record (cause, address of the
instruction, fetched word) and changes nothing else; the pc has advanced if the fetch succeeded. -/
def Obligations.FaultingStepChangesNothingElse : Prop :=
  ∀ s t : State, step s = .next t → t.run = .faulted →
    SameRegs s t ∧ SameMemory s t ∧ SameIo s t ∧
    ((∃ w c, s.mem.fetch s.pc = .ok w ∧ t.pc = s.pc + 1#32 ∧ c ≠ .fetchOutOfBounds ∧
        t.fault = some { cause := c, fpc := s.pc, fword := some w } ∧
        t.answer = some (.fault c s.pc (some w))) ∨
     (s.mem.fetch s.pc = .error .fetchOutOfBounds ∧ t.pc = s.pc ∧
        t.fault = some { cause := .fetchOutOfBounds, fpc := s.pc, fword := none } ∧
        t.answer = some (.fault .fetchOutOfBounds s.pc none)))

/-- R200: the codes are 1 to 10, one each; the cause of a faulting step is one that the table
gives its opcode. -/
def Obligations.FaultCausesFollowTheTable : Prop :=
  [Cause.invalidOpcode, .fetchOutOfBounds, .unmappedSegment, .segmentOutOfBounds, .divideByZero,
    .outputRange, .releaseProgramSegment, .allocationFailure, .encodingOverflow,
    .codecContract].map causeCode = [1, 2, 3, 4, 5, 6, 7, 8, 9, 10] ∧
  ∀ s t : State, step s = .next t → t.run = .faulted → ∃ r, t.fault = some r ∧
    ((r.cause = .fetchOutOfBounds ∧ s.mem.fetch s.pc = .error .fetchOutOfBounds) ∨
     ∃ w, Fetches s w ∧
      ((r.cause = .invalidOpcode ∧ 14 ≤ bitsAt w 31 28) ∨
       (r.cause = .unmappedSegment ∧ bitsAt w 31 28 ∈ [1, 2, 9, 12]) ∨
       (r.cause = .segmentOutOfBounds ∧ bitsAt w 31 28 ∈ [1, 2]) ∨
       (r.cause = .divideByZero ∧ bitsAt w 31 28 = 5) ∨
       (r.cause = .outputRange ∧ bitsAt w 31 28 = 10) ∨
       (r.cause = .releaseProgramSegment ∧ bitsAt w 31 28 = 9 ∧
          ∀ c : Reg, bitsAt w 2 0 = c.val → s.reg c = 0#32) ∨
       (r.cause = .allocationFailure ∧ bitsAt w 31 28 = 8)))

/-- R11: a register that a step changes is the one the table gives the opcode. -/
def Obligations.RegistersWrittenFollowTheTable : Prop :=
  ∀ (s t : State) (r : Reg), step s = .next t → t.reg r ≠ s.reg r → ∃ w, Fetches s w ∧
    ((bitsAt w 31 28 = 0 ∧ bitsAt w 8 6 = r.val ∧
        ∀ c : Reg, bitsAt w 2 0 = c.val → s.reg c ≠ 0#32) ∨
     (bitsAt w 31 28 ∈ [1, 3, 4, 5, 6] ∧ bitsAt w 8 6 = r.val) ∨
     (bitsAt w 31 28 = 8 ∧ bitsAt w 5 3 = r.val) ∨
     (bitsAt w 31 28 = 11 ∧ bitsAt w 2 0 = r.val) ∨
     (bitsAt w 31 28 = 13 ∧ bitsAt w 27 25 = r.val))

/-- Only SSTORE, MAP, UNMAP and LOADP change the store, and of these only MAP and UNMAP the free
pool and the next fresh identifier. -/
def Obligations.StoreChangedOnlyBySegmentOps : Prop :=
  ∀ (s t : State) (w : Word), Fetches s w → step s = .next t →
    (bitsAt w 31 28 ∉ [2, 8, 9, 12] → SameMemory s t) ∧
    (bitsAt w 31 28 ∉ [8, 9] → t.mem.free = s.mem.free ∧ t.mem.nextFresh = s.mem.nextFresh) ∧
    (bitsAt w 31 28 = 9 → t.mem.nextFresh = s.mem.nextFresh)

/-- R22, R33: only OUT sends, at most one byte a step, appended; only IN takes an item; nothing
is sent before the first step. -/
def Obligations.ChannelsUsedOnlyByOutAndIn : Prop :=
  State.reset.outq = [] ∧
  ∀ s t : State, step s = .next t → t.alloc = s.alloc ∧
    (t.outq = s.outq ∨ ∃ w b, Fetches s w ∧ bitsAt w 31 28 = 10 ∧ t.outq = s.outq ++ [b]) ∧
    (t.input = s.input ∨ ∃ w, Fetches s w ∧ bitsAt w 31 28 = 11 ∧ t.input = s.input.taken)

/-- A segment that stays mapped keeps its length, except segment 0 under LOADP; from every state
with the store's invariants. -/
def Obligations.MappedSegmentsKeepTheirLength : Prop :=
  ∀ (s t : State) (id : Word) (g g' : Segment), s.mem.Inv → step s = .next t →
    s.mem.segment id = some g → t.mem.segment id = some g' →
    g'.len = g.len ∨ (id = 0#32 ∧ ∃ w, Fetches s w ∧ bitsAt w 31 28 = 12)

/-- R62: a store to segment 0 is what the next fetch of that word reads, be it the word of the
store itself; a replaced segment 0 is what every next fetch reads. -/
def Obligations.StoresAreSeenByTheNextFetch : Prop :=
  (∀ (s : State) (w : Word) (a b c : Reg) (g : Segment), Fetches s w →
    decode w = .instr (.sstore a b c) → s.reg a = 0#32 → s.mem.segment 0#32 = some g →
    (s.reg b).toNat < g.len → ∃ t, step s = .next t ∧ t.mem.fetch (s.reg b) = .ok (s.reg c) ∧
      ∀ off, off ≠ s.reg b → t.mem.fetch off = s.mem.fetch off) ∧
  ∀ (s : State) (w : Word) (b c : Reg) (g : Segment), Fetches s w →
    decode w = .instr (.loadp b c) → s.reg b ≠ 0#32 → s.mem.segment (s.reg b) = some g →
    ∃ t, step s = .next t ∧ t.pc = s.reg c ∧ ∀ off, t.mem.fetch off =
      if off.toNat < g.len then .ok (g.word off.toNat) else .error .fetchOutOfBounds

/-- R16: under the store's invariants no fetch succeeds at the top of the address space, so the
increment after a fetch never wraps. -/
def Obligations.PcIncrementNeverWraps : Prop :=
  ∀ s : State, s.mem.Inv → s.mem.fetch 0xFFFFFFFF#32 = .error .fetchOutOfBounds ∧
    ∀ w, Fetches s w → (s.pc + 1#32).toNat = s.pc.toNat + 1

/-! ## Invariants -/

/-- The store's invariants I1 to I6, the bound on lengths and the canonical form are kept by every
step from every state that has them. -/
def Obligations.StepKeepsStoreInvariants : Prop :=
  ∀ s t : State, s.mem.Inv → step s = .next t → t.mem.Inv

/-- R20: the fault record is `none` exactly when the run state is not Faulted, and its word is
`none` exactly for a fetch fault: kept by every step, and so at reset. -/
def Obligations.StepKeepsFaultRecordConsistent : Prop :=
  State.reset.fault = none ∧ State.reset.RecordConsistent ∧
  ∀ s t : State, s.RecordConsistent → step s = .next t → t.RecordConsistent

/-- The reset state, and every state an accepted `Load` gives, has the invariants. -/
def Obligations.LoadedStatesHaveTheInvariants : Prop :=
  State.reset.Inv ∧
  ∀ (words : List Word) (input : HostInput) (alloc : AllocPolicy) (s : State),
    load words input alloc = .ok s → s.Inv

/-- R43 and two clauses of the model's own: the store's invariants hold in every state that any run
of any program reaches, for every input source and every allocation predicate. The clauses of
`Memory.Inv` that R43 does not list are the canonical form with the bound on lengths (log entry 1)
and `freeMinted`, that every identifier in the free pool has been minted (log entry 13). -/
def Obligations.EveryReachableStoreHasTheInvariants : Prop :=
  ∀ (words : List Word) (input : HostInput) (alloc : AllocPolicy) (s : State) (n : Nat),
    load words input alloc = .ok s → (drive n s).mem.Inv

/-! ## Reset, boot and the host's side (spec/70_reset_and_hazards.md, spec/10_state.md) -/

/-- R230, R231, R232: what `Load(words)` leaves. -/
def Obligations.LoadGivesTheResetState : Prop :=
  ∀ (words : List Word) (input : HostInput) (alloc : AllocPolicy) (s : State),
    load words input alloc = .ok s →
    (∀ r, s.reg r = 0#32) ∧ s.pc = 0#32 ∧ s.run = .running ∧ s.fault = none ∧
    s.mem = Memory.create words ∧
    (∀ (off w : Word), words[off.toNat]? = some w → s.mem.segRead 0#32 off = .ok w) ∧
    (∀ id : Word, id ≠ 0#32 → s.mem.segment id = none) ∧ s.mem.free = [] ∧
    s.mem.nextFresh = 1 ∧ s.outq = []

/-- The model's choice of how a state carries the two open parameters (log entries 3 and 4): the
open source gives `Config.inputItem` at its position and moves on, a list of bytes gives them in
order and then the end of the stream for ever, the open predicate is `Config.allocOk`; a loaded
state has the two the host connects, the source as `HostInput.start` gives it, and no step changes the predicate. -/
def Obligations.HostParametersAreCarried : Prop :=
  (∀ n, (InputSource.oracle n).item = Config.inputItem n ∧
    (InputSource.oracle n).taken = .oracle (n + 1)) ∧
  (∀ b rest, (InputSource.bytes (b :: rest)).item = some b ∧
    (InputSource.bytes (b :: rest)).taken = .bytes rest) ∧
  ((InputSource.bytes []).item = none ∧ (InputSource.bytes []).taken = .bytes []) ∧
  (∀ (s : State) (size : Word), (s.alloc = .platform → s.allocOk size = Config.allocOk s.mem size) ∧
    ∀ answer, s.alloc = .fixed answer → s.allocOk size = answer) ∧
  (∀ (words : List Word) (input : HostInput) (alloc : AllocPolicy) (s : State),
    load words input alloc = .ok s → s.input = input.start ∧ s.alloc = alloc) ∧
  ∀ s t : State, step s = .next t → t.alloc = s.alloc

/-- R235, over the model's carriers of the source (log entry 3): every accepted `Load` leaves
nothing sent and the source at its first item, that of position 0 of the open source and the head
of a list (the end of the stream, if it is empty); so does `State.reset`. -/
def Obligations.LoadStartsAtTheFirstItem : Prop :=
  (State.reset.outq = [] ∧ State.reset.input = .oracle 0) ∧
  ∀ (words : List Word) (input : HostInput) (alloc : AllocPolicy) (s : State),
    load words input alloc = .ok s → s.outq = [] ∧
      (input = .oracle → s.input.item = Config.inputItem 0) ∧
      ∀ items, input = .bytes items → s.input.item = items.head?

/-- R233: an image of 4k bytes is k words, big-endian. -/
def Obligations.ImageWordsAreBigEndian : Prop :=
  ∀ image : List Byte, image.length % 4 = 0 →
    ∃ ws, imageWords image = .ok ws ∧ image.length = 4 * ws.length ∧
      ∀ (i : Nat) (w : Word) (b0 b1 b2 b3 : Byte), ws[i]? = some w → image[4 * i]? = some b0 →
        image[4 * i + 1]? = some b1 → image[4 * i + 2]? = some b2 → image[4 * i + 3]? = some b3 →
        w.toNat = b0.toNat * 2 ^ 24 + b1.toNat * 2 ^ 16 + b2.toNat * 2 ^ 8 + b3.toNat

/-- R234: the two images that are refused; every other loads, the empty one too, whose first step
faults. -/
def Obligations.BadImagesAreRefused : Prop :=
  (∀ (image : List Byte) input alloc, image.length % 4 ≠ 0 →
    loadImage image input alloc = .error .lengthNotMultipleOf4) ∧
  (∀ (image : List Byte) input alloc, image.length % 4 = 0 → 2 ^ 32 ≤ image.length / 4 →
    loadImage image input alloc = .error .imageTooLong) ∧
  (∀ (image : List Byte) input alloc, image.length % 4 = 0 → image.length / 4 < 2 ^ 32 →
    ∃ s, loadImage image input alloc = .ok s) ∧
  ∀ input alloc, ∃ s t, loadImage [] input alloc = .ok s ∧ step s = .next t ∧
    t.fault = some { cause := .fetchOutOfBounds, fpc := 0#32, fword := none }

/-- R36: the host reads the whole state, and only once the run is over. -/
def Obligations.StatusReadOnlyAfterTheRun : Prop :=
  ∀ s : State, (s.run ≠ .running → s.status = some s) ∧ (s.run = .running → s.status = none)
end

