-- ==== Sys2Proof/Laws/Codec.lean ====
section
/-! SUPPORT. The laws of the bit-field codec: a field as a quotient and a remainder, its bits, and what packing answers. -/

namespace Sys2Proof

/-- A field is the word divided by 2^offset, modulo 2^width. -/
theorem fieldOf_eq (w : Word) (width offset : Nat) :
    fieldOf w width offset = w.toNat / 2 ^ offset % 2 ^ width := by
  rw [fieldOf, Nat.shiftRight_eq_div_pow, Nat.and_two_pow_sub_one_eq_mod]

theorem fieldOf_lt (w : Word) (width offset : Nat) : fieldOf w width offset < 2 ^ width := by
  rw [fieldOf_eq]; exact Nat.mod_lt _ (Nat.two_pow_pos _)

/-- Bit `i` of a field is bit `offset + i` of the word. -/
theorem testBit_fieldOf (w : Word) (width offset i : Nat) :
    (fieldOf w width offset).testBit i = (decide (i < width) && w.toNat.testBit (offset + i)) := by
  rw [fieldOf_eq, Nat.testBit_mod_two_pow, Nat.testBit_div_two_pow, Nat.add_comm]

/-- Bit `i` of a mask is set exactly inside its field. -/
theorem testBit_fieldMask (width offset i : Nat) (h : i < 32) :
    (fieldMask width offset).getLsbD i = (decide (offset ≤ i) && decide (i < offset + width)) := by
  rw [fieldMask, BitVec.getLsbD_ofNat, Nat.testBit_shiftLeft, Nat.testBit_two_pow_sub_one]
  by_cases h1 : offset ≤ i <;> by_cases h2 : i < offset + width <;> simp [h, h1, h2] <;> omega

/-- Packing a value that fits answers a word. -/
theorem packUnsigned_ok {w : Word} {width offset value : Nat} (h : width + offset ≤ 32)
    (hv : value < 2 ^ width) : packUnsigned w width offset value =
      .ok ((w &&& ~~~(fieldMask width offset)) ||| BitVec.ofNat 32 (value <<< offset)) := by
  simp [packUnsigned, fitsUnsigned, h, hv]

/-- A register-index field has the value of its bits. -/
theorem regField_val (w : Word) (offset : Nat) :
    (regField w offset).val = w.toNat / 2 ^ offset % 8 := by
  have := fieldOf_lt w 3 offset
  simp only [regField, Fin.ofNat, fieldOf_eq] at *
  omega

/-- The immediate field has the value of its bits. -/
theorem fieldImm_toNat (w : Word) : (fieldImm w).toNat = w.toNat % 2 ^ 25 := by
  simp only [fieldImm, fieldOf_eq, BitVec.toNat_ofNat]
  omega

theorem opcodeOf_eq (w : Word) : opcodeOf w = w.toNat / 2 ^ 28 := by
  have := w.isLt
  simp only [opcodeOf, fieldOf_eq]
  omega

/-- Packing a field of zeros adds the value at its place. -/
theorem packUnsigned_toNat {w : Word} {width offset value : Nat} (h : width + offset ≤ 32)
    (hv : value < 2 ^ width) (h0 : fieldOf w width offset = 0) :
    ∃ r, packUnsigned w width offset value = .ok r ∧ r.toNat = w.toNat + value * 2 ^ offset := by
  refine ⟨_, packUnsigned_ok h hv, ?_⟩
  have hlt : value <<< offset < 2 ^ 32 := by
    rw [Nat.shiftLeft_eq]
    calc value * 2 ^ offset < 2 ^ width * 2 ^ offset :=
          Nat.mul_lt_mul_of_pos_right hv (Nat.two_pow_pos _)
      _ = 2 ^ (width + offset) := (Nat.pow_add ..).symm
      _ ≤ 2 ^ 32 := Nat.pow_le_pow_right (by norm_num) h
  have clear : ∀ i, offset ≤ i → i < offset + width → w.getLsbD i = false := by
    intro i h1 h2
    have hb : (fieldOf w width offset).testBit (i - offset) = false := by simp [h0]
    rw [testBit_fieldOf, Nat.add_sub_cancel' h1] at hb
    have hl : i - offset < width := by omega
    simpa [hl, BitVec.getLsbD] using hb
  have hclear : w &&& ~~~(fieldMask width offset) = w := by
    refine BitVec.eq_of_getLsbD_eq fun i hi => ?_
    rw [BitVec.getLsbD_and, BitVec.getLsbD_not, testBit_fieldMask _ _ _ hi]
    by_cases h1 : offset ≤ i <;> by_cases h2 : i < offset + width <;>
      simp [h1, h2, hi]
    exact clear i h1 h2
  have hdisj : w &&& BitVec.ofNat 32 (value <<< offset) = 0#32 := by
    refine BitVec.eq_of_getLsbD_eq fun i hi => ?_
    rw [BitVec.getLsbD_and, BitVec.getLsbD_ofNat, Nat.testBit_shiftLeft]
    by_cases h1 : offset ≤ i
    · by_cases h2 : i < offset + width
      · simp [clear i h1 h2]
      · have : value.testBit (i - offset) = false :=
          Nat.testBit_lt_two_pow (hv.trans_le (Nat.pow_le_pow_right (by norm_num) (by omega)))
        simp [this]
    · simp [h1]
  have hw : fieldOf w width offset = w.toNat / 2 ^ offset % 2 ^ width := fieldOf_eq ..
  rw [hclear, ← BitVec.add_eq_or_of_and_eq_zero _ _ hdisj, BitVec.toNat_add, BitVec.toNat_ofNat,
    Nat.mod_eq_of_lt hlt, Nat.mod_eq_of_lt, Nat.shiftLeft_eq]
  have := BitVec.toNat_add_of_and_eq_zero hdisj
  rw [BitVec.toNat_ofNat, Nat.mod_eq_of_lt hlt] at this
  exact this ▸ BitVec.isLt _

/-- What the encoder of the three-register format answers. -/
theorem encode3R_toNat {op a b c : Nat} (ho : op < 16) (ha : a < 8) (hb : b < 8) (hc : c < 8) :
    ∃ w, encode3R op a b c = .ok w ∧ w.toNat = op * 2 ^ 28 + a * 2 ^ 6 + b * 2 ^ 3 + c := by
  obtain ⟨w0, e0, n0⟩ := packUnsigned_toNat (w := 0#32) (width := 4) (offset := 28) (value := op)
    (by omega) (by omega) (by simp [fieldOf_eq])
  obtain ⟨w1, e1, n1⟩ := packUnsigned_toNat (w := w0) (width := 3) (offset := 6) (value := a)
    (by omega) (by omega) (by rw [fieldOf_eq, n0]; simp; omega)
  obtain ⟨w2, e2, n2⟩ := packUnsigned_toNat (w := w1) (width := 3) (offset := 3) (value := b)
    (by omega) (by omega) (by rw [fieldOf_eq, n1, n0]; simp; omega)
  obtain ⟨w3, e3, n3⟩ := packUnsigned_toNat (w := w2) (width := 3) (offset := 0) (value := c)
    (by omega) (by omega) (by rw [fieldOf_eq, n2, n1, n0]; simp; omega)
  refine ⟨w3, ?_, by rw [n3, n2, n1, n0]; simp⟩
  simp only [encode3R, e0, e1, e2, e3, bind, Except.bind]

/-- What the encoder of the load-immediate format answers. -/
theorem encodeLI_toNat {r imm : Nat} (hr : r < 8) (hi : imm < 2 ^ 25) :
    ∃ w, encodeLI r imm = .ok w ∧ w.toNat = 13 * 2 ^ 28 + r * 2 ^ 25 + imm := by
  obtain ⟨w0, e0, n0⟩ := packUnsigned_toNat (w := 0#32) (width := 4) (offset := 28) (value := 13)
    (by omega) (by omega) (by simp [fieldOf_eq])
  obtain ⟨w1, e1, n1⟩ := packUnsigned_toNat (w := w0) (width := 3) (offset := 25) (value := r)
    (by omega) (by omega) (by rw [fieldOf_eq, n0]; simp)
  obtain ⟨w2, e2, n2⟩ := packUnsigned_toNat (w := w1) (width := 25) (offset := 0) (value := imm)
    (by omega) hi (by rw [fieldOf_eq, n1, n0]; simp)
  refine ⟨w2, ?_, by rw [n2, n1, n0]; simp⟩
  simp only [encodeLI, e0, e1, e2, bind, Except.bind]

end Sys2Proof
end

