-- ==== Sys2Proof/Laws/Table.lean ====
section
/-! SUPPORT. The laws of sorted tables: read after write, the canonical order is kept, equal reads make equal tables. -/

namespace Sys2Proof.Machine

variable {α : Type}

@[simp] theorem tableGet_nil (a : Nat) : tableGet ([] : List (Nat × α)) a = none := rfl

/-- Reading after a write, at the same key and at every other. -/
theorem tableGet_put (l : List (Nat × α)) (a b : Nat) (v : α) :
    tableGet (tablePut l a v) b = if a = b then some v else tableGet l b := by
  induction l with
  | nil => rfl
  | cons p l ih =>
    obtain ⟨k, u⟩ := p
    by_cases hlt : a < k
    · simp [tablePut, hlt, tableGet]
    · by_cases hk : k = a
      · by_cases hb : a = b <;> simp [tablePut, tableGet, hk, hb]
      · by_cases hb : k = b
        · subst hb; simp [tablePut, tableGet, hlt, hk, Ne.symm hk]
        · simp [tablePut, tableGet, hlt, hk, hb, ih]

theorem tableErase_cons (k : Nat) (u : α) (l : List (Nat × α)) (a : Nat) :
    tableErase ((k, u) :: l) a = if k = a then tableErase l a else (k, u) :: tableErase l a := by
  by_cases h : k = a <;> simp [tableErase, h]

/-- Reading after an erasure. -/
theorem tableGet_erase (l : List (Nat × α)) (a b : Nat) :
    tableGet (tableErase l a) b = if a = b then none else tableGet l b := by
  induction l with
  | nil => simp [tableErase]
  | cons p l ih =>
    obtain ⟨k, u⟩ := p
    rw [tableErase_cons]
    by_cases hk : k = a
    · subst hk
      rw [if_pos rfl, ih]
      by_cases hb : k = b <;> simp only [tableGet, hb, if_true, if_false]
    · rw [if_neg hk]
      simp only [tableGet, ih]
      split_ifs <;> first | rfl | (exfalso; omega)

/-- Every listed pair of a written table is the new one or was listed before. -/
theorem mem_tablePut {l : List (Nat × α)} {a : Nat} {v : α} {p : Nat × α}
    (h : p ∈ tablePut l a v) : p = (a, v) ∨ p ∈ l := by
  induction l with
  | nil => simpa [tablePut] using h
  | cons q l ih =>
    obtain ⟨k, u⟩ := q
    simp only [tablePut] at h
    split at h
    · simpa using h
    · split at h
      · rcases List.mem_cons.1 h with h | h
        · exact .inl h
        · exact .inr (List.mem_cons_of_mem _ h)
      · rcases List.mem_cons.1 h with h | h
        · exact .inr (by simp [h])
        · exact (ih h).imp id (List.mem_cons_of_mem _)

theorem mem_tableErase {l : List (Nat × α)} {a : Nat} {p : Nat × α}
    (h : p ∈ tableErase l a) : p ∈ l := List.mem_of_mem_filter h

/-- What a table reads is listed in it. -/
theorem mem_of_tableGet {l : List (Nat × α)} {a : Nat} {v : α} (h : tableGet l a = some v) :
    (a, v) ∈ l := by
  induction l with
  | nil => simp at h
  | cons q l ih =>
    obtain ⟨k, u⟩ := q
    simp only [tableGet] at h
    split at h
    · next e => subst e; simp_all
    · exact List.mem_cons_of_mem _ (ih h)

theorem tableSorted_iff {l : List (Nat × α)} :
    tableSorted l = true ↔ l.Pairwise fun p q => p.1 < q.1 := by simp [tableSorted]

/-- In a sorted table, what is listed is what it reads. -/
theorem tableGet_of_mem {l : List (Nat × α)} (hs : tableSorted l = true) {p : Nat × α}
    (h : p ∈ l) : tableGet l p.1 = some p.2 := by
  rw [tableSorted_iff] at hs
  induction l with
  | nil => simp at h
  | cons q l ih =>
    obtain ⟨k, u⟩ := q
    obtain ⟨hk, hl⟩ := List.pairwise_cons.1 hs
    rcases List.mem_cons.1 h with h | h
    · subst h; simp [tableGet]
    · have : k ≠ p.1 := (hk p h).ne
      simp [tableGet, this, ih hl h]

/-- Writing keeps the order. -/
theorem tableSorted_put {l : List (Nat × α)} (a : Nat) (v : α) (h : tableSorted l = true) :
    tableSorted (tablePut l a v) = true := by
  rw [tableSorted_iff] at h ⊢
  induction l with
  | nil => simp [tablePut]
  | cons q l ih =>
    obtain ⟨k, u⟩ := q
    obtain ⟨hk, hl⟩ := List.pairwise_cons.1 h
    simp only [tablePut]
    split
    · next hlt =>
      refine List.pairwise_cons.2 ⟨fun p hp => ?_, h⟩
      rcases List.mem_cons.1 hp with hp | hp
      · simpa [hp] using hlt
      · exact hlt.trans (hk p hp)
    · split
      · next e => subst e; exact List.pairwise_cons.2 ⟨hk, hl⟩
      · next hlt hne =>
        refine List.pairwise_cons.2 ⟨fun p hp => ?_, ih hl⟩
        rcases mem_tablePut hp with hp | hp
        · have : k < a := by omega
          simpa [hp] using this
        · exact hk p hp

/-- Erasing keeps the order. -/
theorem tableSorted_erase {l : List (Nat × α)} (a : Nat) (h : tableSorted l = true) :
    tableSorted (tableErase l a) = true := by
  rw [tableSorted_iff] at h ⊢
  exact h.filter _

/-- A sorted table lists no key twice. -/
theorem nodup_keys_of_sorted {l : List (Nat × α)} (h : tableSorted l = true) :
    (l.map Prod.fst).Nodup := by
  rw [tableSorted_iff] at h
  exact (List.pairwise_map.2 h).imp fun h => h.ne

/-- The canonical form: sorted tables that read the same at every key are equal. -/
theorem table_ext {l l' : List (Nat × α)} (h : tableSorted l = true) (h' : tableSorted l' = true)
    (e : ∀ a, tableGet l a = tableGet l' a) : l = l' := by
  have sub : ∀ {m m' : List (Nat × α)}, tableSorted m = true →
      (∀ a, tableGet m a = tableGet m' a) → ∀ p ∈ m, p ∈ m' := fun hm he p hp =>
    mem_of_tableGet ((he p.1).symm.trans (tableGet_of_mem hm hp))
  have both : ∀ p, p ∈ l ↔ p ∈ l' := fun p => ⟨sub h e p, sub h' (fun a => (e a).symm) p⟩
  rw [tableSorted_iff] at h h'
  exact List.Perm.eq_of_pairwise (fun a b _ _ hab hba => absurd hab hba.asymm) h h'
    ((List.perm_ext_iff_of_nodup (h.imp fun h e => h.ne (congrArg Prod.fst e))
      (h'.imp fun h e => h.ne (congrArg Prod.fst e))).2 both)

end Sys2Proof.Machine
end

