-- ==== Sys2Proof/Laws/Memory.lean ====
section
/-! SUPPORT. The laws of segments and of the segment-store port: reads after writes, what each operation can do, and that each keeps the canonical form. -/

namespace Sys2Proof.Machine

/-! Segments -/

@[simp] theorem Segment.zeros_len (n : Nat) : (Segment.zeros n).len = n := rfl
@[simp] theorem Segment.zeros_word (n off : Nat) : (Segment.zeros n).word off = 0#32 := rfl
@[simp] theorem Segment.setWord_len (g : Segment) (off : Nat) (v : Word) :
    (g.setWord off v).len = g.len := rfl

/-- Reading a segment after a word of it is set. -/
theorem Segment.word_setWord (g : Segment) (off off' : Nat) (v : Word) :
    (g.setWord off v).word off' = if off = off' then v else g.word off' := by
  by_cases hv : v = 0#32
  · simp only [Segment.setWord, Segment.word, hv, if_true, tableGet_erase]
    split_ifs <;> rfl
  · simp only [Segment.setWord, Segment.word, hv, if_false, tableGet_put]
    split_ifs <;> rfl

theorem Segment.wf_iff {g : Segment} : g.wf = true ↔
    tableSorted g.cells = true ∧ (∀ p ∈ g.cells, p.1 < g.len ∧ p.2 ≠ 0#32) ∧ g.len < 2 ^ 32 := by
  simp only [Segment.wf, Bool.and_eq_true, List.all_eq_true, decide_eq_true_eq, bne_iff_ne,
    and_assoc]

theorem Segment.wf_zeros {n : Nat} (h : n < 2 ^ 32) : (Segment.zeros n).wf = true :=
  Segment.wf_iff.2 ⟨by simp [tableSorted, Segment.zeros], by simp [Segment.zeros], h⟩

/-- Setting a word that exists keeps the canonical form. -/
theorem Segment.wf_setWord {g : Segment} {off : Nat} (v : Word) (h : g.wf = true)
    (hoff : off < g.len) : (g.setWord off v).wf = true := by
  obtain ⟨hs, hc, hl⟩ := Segment.wf_iff.1 h
  refine Segment.wf_iff.2 ⟨?_, fun p hp => ?_, hl⟩
  · by_cases hv : v = 0#32
    · simpa [Segment.setWord, hv] using tableSorted_erase off hs
    · simpa [Segment.setWord, hv] using tableSorted_put off v hs
  · by_cases hv : v = 0#32
    · exact hc p (mem_tableErase (by simpa [Segment.setWord, hv] using hp))
    · rcases mem_tablePut (by simpa [Segment.setWord, hv] using hp) with e | hp
      · subst e; exact ⟨hoff, hv⟩
      · exact hc p hp

/-- Canonical segments of one length that read the same are equal. -/
theorem Segment.ext_of_wf {g g' : Segment} (h : g.wf = true) (h' : g'.wf = true)
    (hl : g.len = g'.len) (hw : ∀ off, off < g.len → g.word off = g'.word off) : g = g' := by
  obtain ⟨hs, hc, -⟩ := Segment.wf_iff.1 h
  obtain ⟨hs', hc', -⟩ := Segment.wf_iff.1 h'
  have none_of : ∀ {k : Segment}, (∀ p ∈ k.cells, p.1 < k.len ∧ p.2 ≠ 0#32) →
      ∀ a, tableGet k.cells a = if a < k.len ∧ k.word a ≠ 0#32 then some (k.word a) else none := by
    intro k hk a
    cases e : tableGet k.cells a with
    | none => simp [Segment.word, e]
    | some v =>
      have hv := hk _ (mem_of_tableGet e)
      simp [Segment.word, e, hv.1, hv.2]
  have he : g.cells = g'.cells := table_ext hs hs' fun a => by
    rw [none_of hc a, none_of hc' a, ← hl]
    by_cases ha : a < g.len
    · rw [hw a ha]
    · simp [ha]
  cases g; cases g'; simp_all

theorem mem_cellsFrom {ws : List Word} {k : Nat} {p : Nat × Word} (h : p ∈ cellsFrom k ws) :
    k ≤ p.1 ∧ p.1 < k + ws.length ∧ p.2 ≠ 0#32 := by
  induction ws generalizing k with
  | nil => simp [cellsFrom] at h
  | cons w ws ih =>
    simp only [cellsFrom] at h
    split at h
    · have := ih h
      simp only [List.length_cons]; exact ⟨by omega, by omega, this.2.2⟩
    · next hw =>
      rcases List.mem_cons.1 h with e | h
      · subst e; simp [hw]
      · have := ih h
        simp only [List.length_cons]; exact ⟨by omega, by omega, this.2.2⟩

theorem tableSorted_cellsFrom (ws : List Word) (k : Nat) :
    tableSorted (cellsFrom k ws) = true := by
  rw [tableSorted_iff]
  induction ws generalizing k with
  | nil => simp [cellsFrom]
  | cons w ws ih =>
    simp only [cellsFrom]
    split
    · exact ih (k + 1)
    · exact List.pairwise_cons.2 ⟨fun p hp => by have := mem_cellsFrom hp; simp only; omega, ih _⟩

theorem getD_tableGet_cellsFrom (ws : List Word) (k i : Nat) :
    (tableGet (cellsFrom k ws) (k + i)).getD 0#32 = ws.getD i 0#32 := by
  induction ws generalizing k i with
  | nil => simp [cellsFrom]
  | cons w ws ih =>
    cases i with
    | zero =>
      by_cases hw : w = 0#32
      · have hn : tableGet (cellsFrom (k + 1) ws) k = none := by
          cases e : tableGet (cellsFrom (k + 1) ws) k with
          | none => rfl
          | some v => exact absurd (mem_cellsFrom (mem_of_tableGet e)).1 (by simp)
        simp [cellsFrom, hw, hn]
      · simp [cellsFrom, hw, tableGet]
    | succ i =>
      have e : k + (i + 1) = k + 1 + i := by omega
      have hk : ¬ k = k + 1 + i := by omega
      by_cases hw : w = 0#32
      · simpa [cellsFrom, hw, e] using ih (k + 1) i
      · simpa [cellsFrom, hw, tableGet, e, hk] using ih (k + 1) i

/-- A segment made of a list of words reads as that list. -/
theorem Segment.word_ofWords (ws : List Word) (off : Nat) :
    (Segment.ofWords ws).word off = ws.getD off 0#32 := by
  simpa [Segment.ofWords, Segment.word] using getD_tableGet_cellsFrom ws 0 off

theorem Segment.wf_ofWords {ws : List Word} (h : ws.length < 2 ^ 32) :
    (Segment.ofWords ws).wf = true :=
  Segment.wf_iff.2 ⟨tableSorted_cellsFrom ws 0,
    fun p hp => by have := mem_cellsFrom hp; exact ⟨by simpa [Segment.ofWords] using this.2.1, this.2.2⟩,
    h⟩

/-! Looking up and placing segments -/

theorem Memory.segment_setSegment (m : Memory) (id id' : Word) (g : Segment) :
    (m.setSegment id g).segment id' = if id = id' then some g else m.segment id' := by
  simp only [Memory.segment, Memory.setSegment, tableGet_put, BitVec.toNat_inj]

@[simp] theorem Memory.setSegment_free (m : Memory) (id : Word) (g : Segment) :
    (m.setSegment id g).free = m.free := rfl
@[simp] theorem Memory.setSegment_nextFresh (m : Memory) (id : Word) (g : Segment) :
    (m.setSegment id g).nextFresh = m.nextFresh := rfl

theorem Memory.wf_iff {m : Memory} : m.wf = true ↔
    tableSorted m.seg = true ∧ ∀ p ∈ m.seg, p.1 < 2 ^ 32 ∧ p.2.wf = true := by
  simp only [Memory.wf, Bool.and_eq_true, List.all_eq_true, decide_eq_true_eq]

theorem Memory.wf_setSegment {m : Memory} {id : Word} {g : Segment} (h : m.wf = true)
    (hg : g.wf = true) : (m.setSegment id g).wf = true := by
  obtain ⟨hs, hm⟩ := Memory.wf_iff.1 h
  refine Memory.wf_iff.2 ⟨tableSorted_put _ _ hs, fun p hp => ?_⟩
  rcases mem_tablePut hp with e | hp
  · subst e; exact ⟨id.isLt, hg⟩
  · exact hm p hp

/-- A mapped segment of a canonical store is canonical. -/
theorem Memory.wf_segment {m : Memory} {id : Word} {g : Segment} (h : m.wf = true)
    (hg : m.segment id = some g) : g.wf = true :=
  ((Memory.wf_iff.1 h).2 _ (mem_of_tableGet hg)).2

/-! What each operation of the port can do -/

theorem Memory.segRead_of_mapped {m : Memory} {id off : Word} {g : Segment}
    (h : m.segment id = some g) : m.segRead id off =
      if off.toNat < g.len then .ok (g.word off.toNat) else .error .segmentOutOfBounds := by
  simp [Memory.segRead, h]

theorem Memory.segRead_of_unmapped {m : Memory} {id off : Word} (h : m.segment id = none) :
    m.segRead id off = .error .unmappedSegment := by simp [Memory.segRead, h]

theorem Memory.segRead_congr {m m' : Memory} {id : Word} (h : m'.segment id = m.segment id)
    (off : Word) : m'.segRead id off = m.segRead id off := by simp [Memory.segRead, h]

/-- `SegRead` answers the word at an offset inside a mapped segment, or one of its two faults. -/
theorem Memory.segRead_cases (m : Memory) (id off : Word) :
    (∃ g, m.segment id = some g ∧ off.toNat < g.len ∧ m.segRead id off = .ok (g.word off.toNat)) ∨
    (m.segment id = none ∧ m.segRead id off = .error .unmappedSegment) ∨
    (∃ g, m.segment id = some g ∧ g.len ≤ off.toNat ∧
      m.segRead id off = .error .segmentOutOfBounds) := by
  cases h : m.segment id with
  | none => exact .inr (.inl ⟨rfl, Memory.segRead_of_unmapped h⟩)
  | some g =>
    by_cases ho : off.toNat < g.len
    · exact .inl ⟨g, rfl, ho, by simp [Memory.segRead, h, ho]⟩
    · exact .inr (.inr ⟨g, rfl, by omega, by simp [Memory.segRead, h, ho]⟩)

/-- `Fetch` answers a word of segment 0 at an offset inside it, or its one fault. -/
theorem Memory.fetch_cases (m : Memory) (off : Word) :
    (∃ g, m.segment 0#32 = some g ∧ off.toNat < g.len ∧ m.fetch off = .ok (g.word off.toNat)) ∨
    m.fetch off = .error .fetchOutOfBounds := by
  cases h : m.segment 0#32 with
  | none => exact .inr (by simp [Memory.fetch, h])
  | some g =>
    by_cases ho : off.toNat < g.len
    · exact .inl ⟨g, rfl, ho, by simp [Memory.fetch, h, ho]⟩
    · exact .inr (by simp [Memory.fetch, h, ho])

/-- `SegWrite` replaces one word of a mapped segment, or answers one of its two faults. -/
theorem Memory.segWrite_cases (m : Memory) (id off v : Word) :
    (∃ g, m.segment id = some g ∧ off.toNat < g.len ∧
      m.segWrite id off v = .ok (m.setSegment id (g.setWord off.toNat v))) ∨
    (m.segment id = none ∧ m.segWrite id off v = .error .unmappedSegment) ∨
    (∃ g, m.segment id = some g ∧ g.len ≤ off.toNat ∧
      m.segWrite id off v = .error .segmentOutOfBounds) := by
  cases h : m.segment id with
  | none => exact .inr (.inl ⟨rfl, by simp [Memory.segWrite, h]⟩)
  | some g =>
    by_cases ho : off.toNat < g.len
    · exact .inl ⟨g, rfl, ho, by simp [Memory.segWrite, h, ho]⟩
    · exact .inr (.inr ⟨g, rfl, by omega, by simp [Memory.segWrite, h, ho]⟩)

/-- `Allocate` takes the head of the free pool, or mints the next identifier, or answers its one
fault: no identifier is left, or storage does not suffice. -/
theorem Memory.allocate_cases (m : Memory) (ok : Bool) (size : Word) :
    (∃ id rest, m.free = id :: rest ∧ ok = true ∧ m.allocate ok size =
      .ok (id, { m with free := rest }.setSegment id (Segment.zeros size.toNat))) ∨
    (∃ id : Word, m.free = [] ∧ m.nextFresh < 2 ^ 32 ∧ ok = true ∧ id.toNat = m.nextFresh ∧
      m.allocate ok size = .ok (id,
        { m with nextFresh := m.nextFresh + 1 }.setSegment id (Segment.zeros size.toNat))) ∨
    (((m.free = [] ∧ 2 ^ 32 ≤ m.nextFresh) ∨ ok = false) ∧
      m.allocate ok size = .error .allocationFailure) := by
  cases ok with
  | false => exact .inr (.inr ⟨.inr rfl, by cases h : m.free <;> simp [Memory.allocate, h]⟩)
  | true =>
    cases h : m.free with
    | cons id rest => exact .inl ⟨id, rest, rfl, rfl, by simp [Memory.allocate, h]⟩
    | nil =>
      by_cases hn : m.nextFresh < 2 ^ 32
      · refine .inr (.inl ⟨BitVec.ofNat 32 m.nextFresh, rfl, hn, rfl, ?_, ?_⟩)
        · simpa using Nat.mod_eq_of_lt hn
        · simp only [Memory.allocate, h, hn, decide_true, Bool.and_self, if_true]
      · exact .inr (.inr ⟨.inl ⟨rfl, by omega⟩, by
          simp only [Memory.allocate, h, hn, decide_false, Bool.false_and]; rfl⟩)

/-- `Release` unmaps a mapped identifier other than 0 and pushes it, or answers one of its two
faults. -/
theorem Memory.release_cases (m : Memory) (id : Word) :
    (∃ g, id ≠ 0#32 ∧ m.segment id = some g ∧ m.release id =
      .ok { m with seg := tableErase m.seg id.toNat, free := id :: m.free }) ∨
    (id = 0#32 ∧ m.release id = .error .releaseProgramSegment) ∨
    (id ≠ 0#32 ∧ m.segment id = none ∧ m.release id = .error .unmappedSegment) := by
  by_cases h0 : id = 0#32
  · exact .inr (.inl ⟨h0, by simp [Memory.release, h0]⟩)
  · cases h : m.segment id with
    | none => exact .inr (.inr ⟨h0, rfl, by simp [Memory.release, h0, h]⟩)
    | some g => exact .inl ⟨g, h0, rfl, by simp [Memory.release, h0, h]⟩

/-- After an identifier is unmapped, it has no segment and every other has the one it had. -/
theorem Memory.segment_erase (m : Memory) (id id' : Word) (fr : List Word) :
    ({ m with seg := tableErase m.seg id.toNat, free := fr } : Memory).segment id' =
      if id = id' then none else m.segment id' := by
  simp only [Memory.segment, tableGet_erase, BitVec.toNat_inj]

/-- `ReplaceProgram` changes nothing for identifier 0, copies a mapped segment into segment 0, or
answers its one fault. -/
theorem Memory.replaceProgram_cases (m : Memory) (id : Word) :
    (∃ g, m.segment id = some g ∧ id ≠ 0#32 ∧ m.replaceProgram id = .ok (m.setSegment 0#32 g)) ∨
    (∃ g, m.segment id = some g ∧ id = 0#32 ∧ m.replaceProgram id = .ok m) ∨
    (m.segment id = none ∧ m.replaceProgram id = .error .unmappedSegment) := by
  cases h : m.segment id with
  | none => exact .inr (.inr ⟨rfl, by simp [Memory.replaceProgram, h]⟩)
  | some g =>
    by_cases h0 : id = 0#32
    · exact .inr (.inl ⟨g, rfl, h0, by simp only [Memory.replaceProgram, h]; rw [if_pos h0]⟩)
    · exact .inl ⟨g, rfl, h0, by simp only [Memory.replaceProgram, h]; rw [if_neg h0]⟩

/-! Every operation keeps the canonical form -/

theorem Memory.wf_segWrite {m m' : Memory} {id off v : Word} (h : m.wf = true)
    (e : m.segWrite id off v = .ok m') : m'.wf = true := by
  rcases m.segWrite_cases id off v with ⟨g, hg, ho, e'⟩ | ⟨-, e'⟩ | ⟨-, -, -, e'⟩ <;>
    rw [e'] at e <;> cases e
  exact Memory.wf_setSegment h (Segment.wf_setWord v (Memory.wf_segment h hg) ho)

theorem Memory.wf_allocate {m m' : Memory} {ok : Bool} {size id : Word} (h : m.wf = true)
    (e : m.allocate ok size = .ok (id, m')) : m'.wf = true := by
  have hz := Segment.wf_zeros size.isLt
  rcases m.allocate_cases ok size with ⟨i, rest, -, -, e'⟩ | ⟨i, -, -, -, -, e'⟩ | ⟨-, e'⟩ <;>
    rw [e'] at e <;> cases e
  · exact Memory.wf_setSegment (m := { m with free := rest }) h hz
  · exact Memory.wf_setSegment (m := { m with nextFresh := m.nextFresh + 1 }) h hz

theorem Memory.wf_release {m m' : Memory} {id : Word} (h : m.wf = true)
    (e : m.release id = .ok m') : m'.wf = true := by
  obtain ⟨hs, hm⟩ := Memory.wf_iff.1 h
  rcases m.release_cases id with ⟨g, -, -, e'⟩ | ⟨-, e'⟩ | ⟨-, -, e'⟩ <;>
    rw [e'] at e <;> cases e
  exact Memory.wf_iff.2 ⟨tableSorted_erase _ hs, fun p hp => hm p (mem_tableErase hp)⟩

theorem Memory.wf_replaceProgram {m m' : Memory} {id : Word} (h : m.wf = true)
    (e : m.replaceProgram id = .ok m') : m'.wf = true := by
  rcases m.replaceProgram_cases id with ⟨g, hg, -, e'⟩ | ⟨g, -, -, e'⟩ | ⟨-, e'⟩ <;>
    rw [e'] at e <;> cases e
  · exact Memory.wf_setSegment h (Memory.wf_segment h hg)
  · exact h

theorem Memory.wf_create {ws : List Word} (h : ws.length < 2 ^ 32) :
    (Memory.create ws).wf = true := by
  refine Memory.wf_iff.2 ⟨by simp [Memory.create, tableSorted], fun p hp => ?_⟩
  have : p = (0, Segment.ofWords ws) := by simpa [Memory.create] using hp
  subst this
  exact ⟨by norm_num, Segment.wf_ofWords h⟩

/-- Reset memory is canonical. -/
theorem reset_mem_wf : State.reset.mem.wf = true := by decide

end Sys2Proof.Machine
end

