-- ==== Sys2Proof/Laws/State.lean ====
section
/-! SUPPORT. One lemma for each field of State under each update, so that no later proof unfolds a record update. -/

namespace Sys2Proof.Machine

variable (s : State)

@[simp] theorem State.setReg_same (r : Reg) (v : Word) : (s.setReg r v).reg r = v := by
  simp [State.setReg, State.reg]

theorem State.setReg_other {r d : Reg} (v : Word) (h : r ≠ d) :
    (s.setReg d v).reg r = s.reg r := by
  have : d.val ≠ r.val := fun e => h (Fin.ext e.symm)
  simp [State.setReg, State.reg, this]

@[simp] theorem State.setReg_pc (r : Reg) (v : Word) : (s.setReg r v).pc = s.pc := rfl
@[simp] theorem State.setReg_run (r : Reg) (v : Word) : (s.setReg r v).run = s.run := rfl
@[simp] theorem State.setReg_fault (r : Reg) (v : Word) : (s.setReg r v).fault = s.fault := rfl
@[simp] theorem State.setReg_mem (r : Reg) (v : Word) : (s.setReg r v).mem = s.mem := rfl
@[simp] theorem State.setReg_outq (r : Reg) (v : Word) : (s.setReg r v).outq = s.outq := rfl
@[simp] theorem State.setReg_input (r : Reg) (v : Word) : (s.setReg r v).input = s.input := rfl
@[simp] theorem State.setReg_alloc (r : Reg) (v : Word) : (s.setReg r v).alloc = s.alloc := rfl

@[simp] theorem State.setPc_reg (v : Word) (r : Reg) : (s.setPc v).reg r = s.reg r := rfl
@[simp] theorem State.setPc_pc (v : Word) : (s.setPc v).pc = v := rfl
@[simp] theorem State.setPc_run (v : Word) : (s.setPc v).run = s.run := rfl
@[simp] theorem State.setPc_fault (v : Word) : (s.setPc v).fault = s.fault := rfl
@[simp] theorem State.setPc_mem (v : Word) : (s.setPc v).mem = s.mem := rfl
@[simp] theorem State.setPc_outq (v : Word) : (s.setPc v).outq = s.outq := rfl
@[simp] theorem State.setPc_input (v : Word) : (s.setPc v).input = s.input := rfl
@[simp] theorem State.setPc_alloc (v : Word) : (s.setPc v).alloc = s.alloc := rfl

@[simp] theorem State.advance_reg (r : Reg) : s.advance.reg r = s.reg r := rfl
@[simp] theorem State.advance_pc : s.advance.pc = s.pc + 1#32 := rfl
@[simp] theorem State.advance_run : s.advance.run = s.run := rfl
@[simp] theorem State.advance_fault : s.advance.fault = s.fault := rfl
@[simp] theorem State.advance_mem : s.advance.mem = s.mem := rfl
@[simp] theorem State.advance_outq : s.advance.outq = s.outq := rfl
@[simp] theorem State.advance_input : s.advance.input = s.input := rfl
@[simp] theorem State.advance_alloc : s.advance.alloc = s.alloc := rfl

@[simp] theorem State.setMem_reg (m : Memory) (r : Reg) : (s.setMem m).reg r = s.reg r := rfl
@[simp] theorem State.setMem_pc (m : Memory) : (s.setMem m).pc = s.pc := rfl
@[simp] theorem State.setMem_run (m : Memory) : (s.setMem m).run = s.run := rfl
@[simp] theorem State.setMem_fault (m : Memory) : (s.setMem m).fault = s.fault := rfl
@[simp] theorem State.setMem_mem (m : Memory) : (s.setMem m).mem = m := rfl
@[simp] theorem State.setMem_outq (m : Memory) : (s.setMem m).outq = s.outq := rfl
@[simp] theorem State.setMem_input (m : Memory) : (s.setMem m).input = s.input := rfl
@[simp] theorem State.setMem_alloc (m : Memory) : (s.setMem m).alloc = s.alloc := rfl

@[simp] theorem State.stop_reg (r : Reg) : s.stop.reg r = s.reg r := rfl
@[simp] theorem State.stop_pc : s.stop.pc = s.pc := rfl
@[simp] theorem State.stop_run : s.stop.run = .halted := rfl
@[simp] theorem State.stop_fault : s.stop.fault = s.fault := rfl
@[simp] theorem State.stop_mem : s.stop.mem = s.mem := rfl
@[simp] theorem State.stop_outq : s.stop.outq = s.outq := rfl
@[simp] theorem State.stop_input : s.stop.input = s.input := rfl
@[simp] theorem State.stop_alloc : s.stop.alloc = s.alloc := rfl

@[simp] theorem State.send_reg (b : Byte) (r : Reg) : (s.send b).reg r = s.reg r := rfl
@[simp] theorem State.send_pc (b : Byte) : (s.send b).pc = s.pc := rfl
@[simp] theorem State.send_run (b : Byte) : (s.send b).run = s.run := rfl
@[simp] theorem State.send_fault (b : Byte) : (s.send b).fault = s.fault := rfl
@[simp] theorem State.send_mem (b : Byte) : (s.send b).mem = s.mem := rfl
@[simp] theorem State.send_outq (b : Byte) : (s.send b).outq = s.outq ++ [b] := rfl
@[simp] theorem State.send_input (b : Byte) : (s.send b).input = s.input := rfl
@[simp] theorem State.send_alloc (b : Byte) : (s.send b).alloc = s.alloc := rfl

@[simp] theorem State.takeInput_reg (r : Reg) : s.takeInput.reg r = s.reg r := rfl
@[simp] theorem State.takeInput_pc : s.takeInput.pc = s.pc := rfl
@[simp] theorem State.takeInput_run : s.takeInput.run = s.run := rfl
@[simp] theorem State.takeInput_fault : s.takeInput.fault = s.fault := rfl
@[simp] theorem State.takeInput_mem : s.takeInput.mem = s.mem := rfl
@[simp] theorem State.takeInput_outq : s.takeInput.outq = s.outq := rfl
@[simp] theorem State.takeInput_input : s.takeInput.input = s.input.taken := rfl
@[simp] theorem State.takeInput_alloc : s.takeInput.alloc = s.alloc := rfl

variable (c : Cause) (p : Word) (w : Option Word)

@[simp] theorem State.raise_reg (r : Reg) : (s.raise c p w).reg r = s.reg r := rfl
@[simp] theorem State.raise_pc : (s.raise c p w).pc = s.pc := rfl
@[simp] theorem State.raise_run : (s.raise c p w).run = .faulted := rfl
@[simp] theorem State.raise_fault :
    (s.raise c p w).fault = some { cause := c, fpc := p, fword := w } := rfl
@[simp] theorem State.raise_mem : (s.raise c p w).mem = s.mem := rfl
@[simp] theorem State.raise_outq : (s.raise c p w).outq = s.outq := rfl
@[simp] theorem State.raise_input : (s.raise c p w).input = s.input := rfl
@[simp] theorem State.raise_alloc : (s.raise c p w).alloc = s.alloc := rfl

@[simp] theorem State.handlerFault_reg (r : Reg) : (s.handlerFault c).reg r = s.reg r := rfl
@[simp] theorem State.handlerFault_pc : (s.handlerFault c).pc = s.pc := rfl
@[simp] theorem State.handlerFault_run : (s.handlerFault c).run = .faulted := rfl
@[simp] theorem State.handlerFault_fault : (s.handlerFault c).fault =
    some { cause := c, fpc := s.pc - 1#32, fword := s.currentWord } := rfl
@[simp] theorem State.handlerFault_mem : (s.handlerFault c).mem = s.mem := rfl
@[simp] theorem State.handlerFault_outq : (s.handlerFault c).outq = s.outq := rfl
@[simp] theorem State.handlerFault_input : (s.handlerFault c).input = s.input := rfl
@[simp] theorem State.handlerFault_alloc : (s.handlerFault c).alloc = s.alloc := rfl

/-- All that `finish` can do: the handler's own result, or its fault. -/
@[simp] theorem State.finish_ok (t : State) : s.finish (.ok t) = t := rfl
@[simp] theorem State.finish_error : s.finish (.error c) = s.handlerFault c := rfl

/-- Seen from the handler of an instruction fetched at `s.pc`, the executing word is the fetched
one (log entry 2). -/
theorem State.currentWord_advance {w : Word} (h : s.mem.fetch s.pc = .ok w) :
    s.advance.currentWord = some w := by
  simp [State.currentWord, State.ipc, h]

/-- Seen from the handler, the address of the executing instruction is the pc it was fetched at. -/
@[simp] theorem State.ipc_advance : s.advance.ipc = s.pc :=
  BitVec.add_sub_cancel s.pc 1

end Sys2Proof.Machine
end

