-- ==== Sys2Proof/Laws/Meanings.lean ====
section
/-! SUPPORT. What each meaning answers, case by case, and once for all of them together. -/

namespace Sys2Proof.Machine

variable (s : State)

/-! The values the handlers compute -/

@[simp] theorem condHolds_iff (v : Word) : condHolds v = true ↔ v ≠ 0#32 := by simp [condHolds]

@[simp] theorem toNat_sumOf (u v : Word) :
    (sumOf u v).toNat = (u.toNat + v.toNat) % 2 ^ 32 := BitVec.toNat_ofNat ..

@[simp] theorem toNat_productOf (u v : Word) :
    (productOf u v).toNat = (u.toNat * v.toNat) % 2 ^ 32 := BitVec.toNat_ofNat ..

theorem quotientOf_zero (u : Word) : quotientOf u 0#32 = .error .divideByZero := rfl

/-- The quotient needs no reduction: it is at most the dividend. -/
theorem quotientOf_nonzero (u : Word) {v : Word} (h : v ≠ 0#32) :
    ∃ q, quotientOf u v = .ok q ∧ q.toNat = u.toNat / v.toNat := by
  refine ⟨_, if_neg h, ?_⟩
  rw [BitVec.toNat_ofNat]
  exact Nat.mod_eq_of_lt ((Nat.div_le_self _ _).trans_lt u.isLt)

theorem outputByte_fits {v : Word} (h : v.toNat < 256) :
    ∃ b, outputByte v = .ok b ∧ b.toNat = v.toNat := by
  refine ⟨_, if_pos h, ?_⟩
  rw [BitVec.toNat_setWidth]
  exact Nat.mod_eq_of_lt h

theorem outputByte_wide {v : Word} (h : 256 ≤ v.toNat) : outputByte v = .error .outputRange :=
  if_neg (by omega)

theorem toNat_inputWord (b : Byte) : (inputWord (some b)).toNat = b.toNat := by
  have := b.isLt
  rw [inputWord, BitVec.toNat_setWidth]
  exact Nat.mod_eq_of_lt (by omega)

/-! One lemma for each way a meaning that can fault may end -/

theorem execDiv_ok {a b c : Reg} {q : Word} (h : quotientOf (s.reg b) (s.reg c) = .ok q) :
    execDiv a b c s = .next (s.setReg a q) := by simp [execDiv, h, bind, Except.bind, pure, Except.pure]

theorem execDiv_error {a b c : Reg} {e : Cause} (h : quotientOf (s.reg b) (s.reg c) = .error e) :
    execDiv a b c s = .next (s.handlerFault e) := by simp [execDiv, h, bind, Except.bind]

theorem execSload_ok {a b c : Reg} {v : Word} (h : s.mem.segRead (s.reg b) (s.reg c) = .ok v) :
    execSload a b c s = .next (s.setReg a v) := by
  simp [execSload, loadAddress, h, bind, Except.bind, pure, Except.pure]

theorem execSload_error {a b c : Reg} {e : Cause}
    (h : s.mem.segRead (s.reg b) (s.reg c) = .error e) :
    execSload a b c s = .next (s.handlerFault e) := by
  simp [execSload, loadAddress, h, bind, Except.bind]

theorem execSstore_ok {a b c : Reg} {m : Memory}
    (h : s.mem.segWrite (s.reg a) (s.reg b) (s.reg c) = .ok m) :
    execSstore a b c s = .next (s.setMem m) := by
  simp [execSstore, storeAddress, h, bind, Except.bind, pure, Except.pure]

theorem execSstore_error {a b c : Reg} {e : Cause}
    (h : s.mem.segWrite (s.reg a) (s.reg b) (s.reg c) = .error e) :
    execSstore a b c s = .next (s.handlerFault e) := by
  simp [execSstore, storeAddress, h, bind, Except.bind]

theorem execMap_ok {b c : Reg} {id : Word} {m : Memory}
    (h : s.mem.allocate (s.allocOk (s.reg c)) (s.reg c) = .ok (id, m)) :
    execMap b c s = .next ((s.setMem m).setReg b id) := by
  simp [execMap, h, bind, Except.bind, pure, Except.pure]

theorem execMap_error {b c : Reg} {e : Cause}
    (h : s.mem.allocate (s.allocOk (s.reg c)) (s.reg c) = .error e) :
    execMap b c s = .next (s.handlerFault e) := by simp [execMap, h, bind, Except.bind]

theorem execUnmap_ok {c : Reg} {m : Memory} (h : s.mem.release (s.reg c) = .ok m) :
    execUnmap c s = .next (s.setMem m) := by simp [execUnmap, h, bind, Except.bind, pure, Except.pure]

theorem execUnmap_error {c : Reg} {e : Cause} (h : s.mem.release (s.reg c) = .error e) :
    execUnmap c s = .next (s.handlerFault e) := by simp [execUnmap, h, bind, Except.bind]

theorem execOut_ok {c : Reg} {b : Byte} (h : outputByte (s.reg c) = .ok b) :
    execOut c s = .next (s.send b) := by simp [execOut, h, bind, Except.bind, pure, Except.pure]

theorem execOut_error {c : Reg} {e : Cause} (h : outputByte (s.reg c) = .error e) :
    execOut c s = .next (s.handlerFault e) := by simp [execOut, h, bind, Except.bind]

theorem execLoadp_zero {b c : Reg} (h : s.reg b = 0#32) :
    execLoadp b c s = .next (s.setPc (s.reg c)) := by
  simp [execLoadp, h, bind, Except.bind, pure, Except.pure, State.setMem]

theorem execLoadp_ok {b c : Reg} {m : Memory} (h0 : s.reg b ≠ 0#32)
    (h : s.mem.replaceProgram (s.reg b) = .ok m) :
    execLoadp b c s = .next ((s.setMem m).setPc (s.reg c)) := by
  simp [execLoadp, h, h0, bind, Except.bind, pure, Except.pure]

theorem execLoadp_error {b c : Reg} {e : Cause} (h0 : s.reg b ≠ 0#32)
    (h : s.mem.replaceProgram (s.reg b) = .error e) :
    execLoadp b c s = .next (s.handlerFault e) := by
  simp [execLoadp, h, h0, bind, Except.bind]

/-! All meanings together -/

/-- Every handler answers a next state: no instruction is refused, and a fault of the block is a
state (spec/60_exceptions.md R203). -/
theorem exec_next (i : Instr) : ∃ t, exec i s = .next t := by
  cases i <;> exact ⟨_, rfl⟩

/-- The causes a handler of an instruction can raise (spec/60_exceptions.md R200). -/
def handlerCauses (i : Instr) : List Cause :=
  match i with
  | .cmov _ _ _ => []
  | .sload _ _ _ => [.unmappedSegment, .segmentOutOfBounds]
  | .sstore _ _ _ => [.unmappedSegment, .segmentOutOfBounds]
  | .add _ _ _ => []
  | .mul _ _ _ => []
  | .div _ _ _ => [.divideByZero]
  | .nand _ _ _ => []
  | .halt => []
  | .map _ _ => [.allocationFailure]
  | .unmap _ => [.releaseProgramSegment, .unmappedSegment]
  | .out _ => [.outputRange]
  | .inp _ => []
  | .loadp _ _ => [.unmappedSegment]
  | .lv _ _ => []

/-- The effects an instruction has when it does not fault: what changes, and how. -/
inductive Effect (s : State) : Instr → State → Prop where
  | nothing (a b c : Reg) (h : s.reg c = 0#32) : Effect s (.cmov a b c) s
  | cmov (a b c : Reg) (h : s.reg c ≠ 0#32) : Effect s (.cmov a b c) (s.setReg a (s.reg b))
  | sload (a b c : Reg) (v : Word) (h : s.mem.segRead (s.reg b) (s.reg c) = .ok v) :
      Effect s (.sload a b c) (s.setReg a v)
  | sstore (a b c : Reg) (m : Memory) (h : s.mem.segWrite (s.reg a) (s.reg b) (s.reg c) = .ok m) :
      Effect s (.sstore a b c) (s.setMem m)
  | add (a b c : Reg) : Effect s (.add a b c) (s.setReg a (sumOf (s.reg b) (s.reg c)))
  | mul (a b c : Reg) : Effect s (.mul a b c) (s.setReg a (productOf (s.reg b) (s.reg c)))
  | div (a b c : Reg) (q : Word) (h : quotientOf (s.reg b) (s.reg c) = .ok q) :
      Effect s (.div a b c) (s.setReg a q)
  | nand (a b c : Reg) : Effect s (.nand a b c) (s.setReg a (nandOf (s.reg b) (s.reg c)))
  | halt : Effect s .halt s.stop
  | map (b c : Reg) (id : Word) (m : Memory)
      (h : s.mem.allocate (s.allocOk (s.reg c)) (s.reg c) = .ok (id, m)) :
      Effect s (.map b c) ((s.setMem m).setReg b id)
  | unmap (c : Reg) (m : Memory) (h : s.mem.release (s.reg c) = .ok m) :
      Effect s (.unmap c) (s.setMem m)
  | out (c : Reg) (b : Byte) (h : outputByte (s.reg c) = .ok b) : Effect s (.out c) (s.send b)
  | inp (c : Reg) : Effect s (.inp c) (s.takeInput.setReg c (inputWord s.input.item))
  | jump (b c : Reg) (h : s.reg b = 0#32) : Effect s (.loadp b c) (s.setPc (s.reg c))
  | loadp (b c : Reg) (m : Memory) (h0 : s.reg b ≠ 0#32)
      (h : s.mem.replaceProgram (s.reg b) = .ok m) :
      Effect s (.loadp b c) ((s.setMem m).setPc (s.reg c))
  | lv (r : Reg) (imm : Word) : Effect s (.lv r imm) (s.setReg r imm)

/-- All that a handler can do: its effect, or a fault with one of its causes. -/
theorem exec_cases {s : State} {i : Instr} {t : State} (h : exec i s = .next t) :
    Effect s i t ∨ ∃ c ∈ handlerCauses i, t = s.handlerFault c := by
  cases i with
  | cmov a b c =>
    by_cases hc : s.reg c = 0#32
    · have hf : condHolds (s.reg c) = false := by simp [condHolds, hc]
      simp only [exec, execCmov, hf] at h
      cases h; exact .inl (.nothing a b c hc)
    · have hf : condHolds (s.reg c) = true := by simp [hc]
      simp only [exec, execCmov, hf] at h
      cases h; exact .inl (.cmov a b c hc)
  | sload a b c =>
    rcases s.mem.segRead_cases (s.reg b) (s.reg c) with ⟨g, -, -, e⟩ | ⟨-, e⟩ | ⟨g, -, -, e⟩
    · cases (execSload_ok s e).symm.trans h; exact .inl (.sload a b c _ e)
    · cases (execSload_error s e).symm.trans h; exact .inr ⟨_, by simp [handlerCauses], rfl⟩
    · cases (execSload_error s e).symm.trans h; exact .inr ⟨_, by simp [handlerCauses], rfl⟩
  | sstore a b c =>
    rcases s.mem.segWrite_cases (s.reg a) (s.reg b) (s.reg c) with
      ⟨g, -, -, e⟩ | ⟨-, e⟩ | ⟨g, -, -, e⟩
    · cases (execSstore_ok s e).symm.trans h; exact .inl (.sstore a b c _ e)
    · cases (execSstore_error s e).symm.trans h; exact .inr ⟨_, by simp [handlerCauses], rfl⟩
    · cases (execSstore_error s e).symm.trans h; exact .inr ⟨_, by simp [handlerCauses], rfl⟩
  | add a b c => cases h; exact .inl (.add a b c)
  | mul a b c => cases h; exact .inl (.mul a b c)
  | div a b c =>
    by_cases hc : s.reg c = 0#32
    · have e : quotientOf (s.reg b) (s.reg c) = .error .divideByZero := if_pos hc
      cases (execDiv_error s e).symm.trans h; exact .inr ⟨_, by simp [handlerCauses], rfl⟩
    · obtain ⟨q, e, -⟩ := quotientOf_nonzero (s.reg b) hc
      cases (execDiv_ok s e).symm.trans h; exact .inl (.div a b c q e)
  | nand a b c => cases h; exact .inl (.nand a b c)
  | halt => cases h; exact .inl .halt
  | map b c =>
    rcases s.mem.allocate_cases (s.allocOk (s.reg c)) (s.reg c) with
      ⟨id, rest, -, -, e⟩ | ⟨id, -, -, -, -, e⟩ | ⟨-, e⟩
    · cases (execMap_ok s e).symm.trans h; exact .inl (.map b c _ _ e)
    · cases (execMap_ok s e).symm.trans h; exact .inl (.map b c _ _ e)
    · cases (execMap_error s e).symm.trans h; exact .inr ⟨_, by simp [handlerCauses], rfl⟩
  | unmap c =>
    rcases s.mem.release_cases (s.reg c) with ⟨g, -, -, e⟩ | ⟨-, e⟩ | ⟨-, -, e⟩
    · cases (execUnmap_ok s e).symm.trans h; exact .inl (.unmap c _ e)
    · cases (execUnmap_error s e).symm.trans h; exact .inr ⟨_, by simp [handlerCauses], rfl⟩
    · cases (execUnmap_error s e).symm.trans h; exact .inr ⟨_, by simp [handlerCauses], rfl⟩
  | out c =>
    by_cases hc : (s.reg c).toNat < 256
    · obtain ⟨b, e, -⟩ := outputByte_fits hc
      cases (execOut_ok s e).symm.trans h; exact .inl (.out c b e)
    · have e := outputByte_wide (Nat.le_of_not_lt hc)
      cases (execOut_error s e).symm.trans h; exact .inr ⟨_, by simp [handlerCauses], rfl⟩
  | inp c => cases h; exact .inl (.inp c)
  | loadp b c =>
    by_cases h0 : s.reg b = 0#32
    · cases (execLoadp_zero s h0).symm.trans h; exact .inl (.jump b c h0)
    · rcases s.mem.replaceProgram_cases (s.reg b) with ⟨g, -, -, e⟩ | ⟨g, -, e0, -⟩ | ⟨-, e⟩
      · cases (execLoadp_ok s h0 e).symm.trans h; exact .inl (.loadp b c _ h0 e)
      · exact absurd e0 h0
      · cases (execLoadp_error s h0 e).symm.trans h; exact .inr ⟨_, by simp [handlerCauses], rfl⟩
  | lv r imm => cases h; exact .inl (.lv r imm)

end Sys2Proof.Machine
end

