-- ==== Sys2Proof/Laws/PerInstr.lean ====
section
/-! SUPPORT. The per-instruction family: the word of every well-formed instruction carries its opcode. -/

namespace Sys2Proof.Laws.EncodesOpcode

/-- A well-formed instruction has a word, and that word's opcode field is the instruction's. -/
def Statement (i : Instr) : Prop :=
  i.wellFormed = true → ∃ w, encode i = .ok w ∧ opcodeOf w = i.opcode

/-- The opcode of a word of the three-register format is the one it was encoded with. -/
theorem opcode_encode3R {op a b c : Nat} (ho : op < 16) (ha : a < 8) (hb : b < 8) (hc : c < 8) :
    ∃ w, encode3R op a b c = .ok w ∧ opcodeOf w = op := by
  obtain ⟨w, e, n⟩ := encode3R_toNat ho ha hb hc
  exact ⟨w, e, by rw [opcodeOf_eq, n]; omega⟩

theorem cmov (a b c : Reg) : Statement (.cmov a b c) := fun _ =>
  opcode_encode3R (by decide) a.isLt b.isLt c.isLt

theorem sload (a b c : Reg) : Statement (.sload a b c) := fun _ =>
  opcode_encode3R (by decide) a.isLt b.isLt c.isLt

theorem sstore (a b c : Reg) : Statement (.sstore a b c) := fun _ =>
  opcode_encode3R (by decide) a.isLt b.isLt c.isLt

theorem add (a b c : Reg) : Statement (.add a b c) := fun _ =>
  opcode_encode3R (by decide) a.isLt b.isLt c.isLt

theorem mul (a b c : Reg) : Statement (.mul a b c) := fun _ =>
  opcode_encode3R (by decide) a.isLt b.isLt c.isLt

theorem div (a b c : Reg) : Statement (.div a b c) := fun _ =>
  opcode_encode3R (by decide) a.isLt b.isLt c.isLt

theorem nand (a b c : Reg) : Statement (.nand a b c) := fun _ =>
  opcode_encode3R (by decide) a.isLt b.isLt c.isLt

theorem halt : Statement .halt := fun _ =>
  opcode_encode3R (by decide) (by decide) (by decide) (by decide)

theorem map (b c : Reg) : Statement (.map b c) := fun _ =>
  opcode_encode3R (by decide) (by decide) b.isLt c.isLt

theorem unmap (c : Reg) : Statement (.unmap c) := fun _ =>
  opcode_encode3R (by decide) (by decide) (by decide) c.isLt

theorem out (c : Reg) : Statement (.out c) := fun _ =>
  opcode_encode3R (by decide) (by decide) (by decide) c.isLt

theorem inp (c : Reg) : Statement (.inp c) := fun _ =>
  opcode_encode3R (by decide) (by decide) (by decide) c.isLt

theorem loadp (b c : Reg) : Statement (.loadp b c) := fun _ =>
  opcode_encode3R (by decide) (by decide) b.isLt c.isLt

theorem lv (r : Reg) (imm : Word) : Statement (.lv r imm) := fun h => by
  obtain ⟨w, e, n⟩ := encodeLI_toNat (r := r.val) (imm := imm.toNat) r.isLt
    (by simpa [Instr.wellFormed] using h)
  have := r.isLt
  have hi : imm.toNat < 2 ^ 25 := by simpa [Instr.wellFormed] using h
  exact ⟨w, e, by rw [opcodeOf_eq, n, Instr.opcode]; omega⟩

end Sys2Proof.Laws.EncodesOpcode
end

