-- ==== Sys2Proof/Laws/Step.lean ====
section
/-! SUPPORT. What the decoder gives and what a step can do, said once. -/

namespace Sys2Proof.Machine

/-- The decoder answers an instruction exactly when the opcode is below 14. -/
theorem decode_instr_iff (w : Word) : (∃ i, decode w = .instr i) ↔ opcodeOf w < 14 := by
  have h16 : opcodeOf w < 16 := fieldOf_lt w 4 28
  unfold decode
  split <;> simp_all
  omega

/-- An instruction the decoder answers has the opcode of its word. -/
theorem opcode_of_decode {w : Word} {i : Instr} (h : decode w = .instr i) :
    opcodeOf w = i.opcode := by
  unfold decode at h
  split at h <;> cases h <;> assumption

/-- Whatever the decoder answers is well-formed. -/
theorem wellFormed_of_decode {w : Word} {i : Instr} (h : decode w = .instr i) :
    i.wellFormed = true := by
  unfold decode at h
  split at h <;> cases h <;> try rfl
  simp only [Instr.wellFormed, decide_eq_true_eq, fieldImm_toNat]
  exact Nat.mod_lt _ (by norm_num)

/-- A verdict `Invalid(op)` names the opcode, 14 or 15. -/
theorem invalid_of_decode {w : Word} {op : Nat} (h : decode w = .invalid op) :
    opcodeOf w = op ∧ 14 ≤ op := by
  have hn : ¬ ∃ i, decode w = .instr i := by simp [h]
  rw [decode_instr_iff] at hn
  unfold decode at h
  split at h <;> cases h
  exact ⟨rfl, by omega⟩

/-- All that a step can do (spec/40_step_dispatch.md R110): the fault of a fetch, the fault of an
invalid opcode, or the handler of the decoded instruction, on the state with the advanced pc. -/
theorem step_cases {s t : State} (h : step s = .next t) : s.run = .running ∧
    ((s.mem.fetch s.pc = .error .fetchOutOfBounds ∧ t = s.fetchFault .fetchOutOfBounds) ∨
     ∃ w, s.mem.fetch s.pc = .ok w ∧
      ((∃ op, decode w = .invalid op ∧ t = s.invalidFault w) ∨
       ∃ i, decode w = .instr i ∧ exec i s.advance = .next t)) := by
  unfold step at h
  cases hr : s.run with
  | halted => simp [hr] at h
  | faulted => simp [hr] at h
  | running =>
    refine ⟨rfl, ?_⟩
    simp only [hr] at h
    rcases s.mem.fetch_cases s.pc with ⟨g, -, -, e⟩ | e
    · refine .inr ⟨_, e, ?_⟩
      simp only [e, runWord] at h
      cases hd : decode (g.word s.pc.toNat) with
      | instr i => exact .inr ⟨i, rfl, by simpa only [hd] using h⟩
      | invalid op =>
        simp only [hd] at h
        cases h
        exact .inl ⟨op, rfl, rfl⟩
    · refine .inl ⟨e, ?_⟩
      simp only [e] at h
      cases h
      rfl

theorem step_of_instr {s : State} {w : Word} {i : Instr} (hr : s.run = .running)
    (hf : s.mem.fetch s.pc = .ok w) (hd : decode w = .instr i) : step s = exec i s.advance := by
  simp only [step, hr, hf, runWord, hd]

theorem step_of_invalid {s : State} {w : Word} {op : Nat} (hr : s.run = .running)
    (hf : s.mem.fetch s.pc = .ok w) (hd : decode w = .invalid op) :
    step s = .next (s.invalidFault w) := by simp only [step, hr, hf, runWord, hd]

theorem step_of_fetchFault {s : State} {c : Cause} (hr : s.run = .running)
    (hf : s.mem.fetch s.pc = .error c) : step s = .next (s.fetchFault c) := by
  simp only [step, hr, hf]

/-- In the running state a step always has a next state. -/
theorem step_running {s : State} (hr : s.run = .running) : ∃ t, step s = .next t := by
  rcases s.mem.fetch_cases s.pc with ⟨g, -, -, e⟩ | e
  · cases hd : decode (g.word s.pc.toNat) with
    | instr i => rw [step_of_instr hr e hd]; exact exec_next _ i
    | invalid op => exact ⟨_, step_of_invalid hr e hd⟩
  · exact ⟨_, step_of_fetchFault hr e⟩

end Sys2Proof.Machine
end

