-- ==== Sys2Proof/Tests/Slice0.lean ====
section
/-! SUPPORT. Tests: expected values are those of spec/95_test_vectors.md, by the vector's name; and for every statement with hypotheses a witness that meets them, clause by clause. -/

namespace Sys2Proof.Tests

open Sys2Proof.Machine

/-! ## Well-formedness (spec/30_encoding.md R97) -/

/-- The one check: an immediate of 26 bits is refused, and has no encoding (C-16). -/
theorem test_wellFormed_refuses_wide_immediate :
    (Instr.lv 0 0x2000000#32).wellFormed = false ∧
      encode (.lv 0 0x2000000#32) = .error .encodingOverflow := by decide

theorem test_wellFormed_admits_widest_immediate :
    (Instr.lv 7 0x1FFFFFF#32).wellFormed = true ∧
      encode (.lv 7 0x1FFFFFF#32) = .ok 0xDFFFFFFF#32 := by decide

/-! ## The codec: C-1 to C-17, L1-6, L1-7 -/

theorem test_extract :
    extractUnsigned 0xD0008F8F#32 4 28 = .ok 13 ∧ extractUnsigned 0xD0008F8F#32 3 25 = .ok 0 ∧
    extractUnsigned 0xD0008F8F#32 25 0 = .ok 0x8F8F ∧ extractUnsigned 0x3000010A#32 3 6 = .ok 4 ∧
    extractUnsigned 0x3000010A#32 3 3 = .ok 1 ∧ extractUnsigned 0x3000010A#32 3 0 = .ok 2 ∧
    extractUnsigned 0x12345678#32 0 0 = .ok 0 ∧
    extractUnsigned 0x12345678#32 32 0 = .ok 0x12345678 ∧
    extractUnsigned 0x12345678#32 8 24 = .ok 0x12 ∧
    extractUnsigned 0x12345678#32 4 29 = .error .codecContract := by decide

theorem test_fits :
    fitsUnsigned 7 3 = true ∧ fitsUnsigned 8 3 = false ∧ fitsUnsigned 0 0 = true ∧
    fitsUnsigned 1 0 = false := by decide

theorem test_pack :
    packUnsigned 0#32 4 28 13 = .ok 0xD0000000#32 ∧
    packUnsigned 0xFFFFFFFF#32 3 3 0 = .ok 0xFFFFFFC7#32 ∧
    packUnsigned 0xFFFFFFFF#32 32 0 0 = .ok 0#32 ∧
    packUnsigned 0#32 1 31 1 = .ok 0x80000000#32 ∧
    packUnsigned 0x12345678#32 8 8 0xAB = .ok 0x1234AB78#32 ∧
    packUnsigned 0#32 3 0 7 = .ok 7#32 ∧ packUnsigned 0#32 3 0 8 = .error .encodingOverflow ∧
    packUnsigned 0#32 25 0 0x2000000 = .error .encodingOverflow ∧
    packUnsigned 0#32 4 29 0 = .error .codecContract := by decide

theorem test_encode :
    encodeLI 0 0x2000000 = .error .encodingOverflow ∧
    encode3R 0 8 0 0 = .error .encodingOverflow ∧
    encode (.sload 5 1 3) = .ok 0x1000014B#32 ∧ encode (.out 4) = .ok 0xA0000004#32 := by decide

/-! ## Decoding, one written-out word and more for every constructor (R87, R88, R92) -/

/-- E-1, P2, P7: `0000`/`0001`/`0010` in [31:28], A in [8:6], B in [5:3], C in [2:0]. -/
theorem test_decode_cmov_sload_sstore :
    decode 0b00000000000000000000000001010011#32 = .instr (.cmov 1 2 3) ∧
    decode 0b00010000000000000000000101001011#32 = .instr (.sload 5 1 3) ∧
    decode 0b00100000000000000000000001011100#32 = .instr (.sstore 1 3 4) := by decide

/-- E-2 (bits [27:9] all ones), P6, R-13, P3. -/
theorem test_decode_add_mul_div_nand :
    decode 0b00111111111111111111111001010011#32 = .instr (.add 1 2 3) ∧
    decode 0b01000000000000000000000001001010#32 = .instr (.mul 1 1 2) ∧
    decode 0b01010000000000000000000001010011#32 = .instr (.div 1 2 3) ∧
    decode 0b01100000000000000000000011000000#32 = .instr (.nand 3 0 0) := by decide

/-- E-3, E-9, P2, P3, P5, E-10. -/
theorem test_decode_halt_map_unmap_out_in_loadp :
    decode 0b01111111111111111111111111111111#32 = .instr .halt ∧
    decode 0b10000000000000000000000000010011#32 = .instr (.map 2 3) ∧
    decode 0b10010000000000000000000000000001#32 = .instr (.unmap 1) ∧
    decode 0b10100000000000000000000000000100#32 = .instr (.out 4) ∧
    decode 0b10110000000000000000000000000001#32 = .instr (.inp 1) ∧
    decode 0b11000000000000000000000000010011#32 = .instr (.loadp 2 3) := by decide

/-- E-4 to E-8: bit 24 belongs to the immediate, bit 25 to the register. -/
theorem test_decode_lv_invalid :
    decode 0b11010000000000001000111110001111#32 = .instr (.lv 0 0x8F8F#32) ∧
    decode 0xDFFFFFFF#32 = .instr (.lv 7 0x1FFFFFF#32) ∧
    decode 0xD1FFFFFF#32 = .instr (.lv 0 0x1FFFFFF#32) ∧
    decode 0xD2000000#32 = .instr (.lv 1 0#32) ∧
    decode 0xE0000000#32 = .invalid 14 ∧ decode 0xF1234567#32 = .invalid 15 := by decide

/-- Table words: the whole of one word, and none for an invalid opcode. -/
theorem test_decodeTableWord :
    decodeTableWord 32 0x1000014B = some (.sload 5 1 3) ∧
    decodeTableWord 32 0xE0000000 = none := by decide

/-- A placed word is fetched from the very next step (log entry 5). -/
theorem test_withFetchWord :
    step (State.reset.withFetchWord 32 0xD0008F8F) = exec (.lv 0 0x8F8F#32)
      (State.reset.withFetchWord 32 0xD0008F8F).advance ∧
    (State.reset.withFetchWord 32 0xD0008F8F).mem.wf = true := ⟨rfl, by decide⟩

/-! ## One step: the reference environment (spec/92_eei_decisions.md D29), x1 to x3 given -/

/-- A state at the first word of a program, with x1, x2, x3 as given and the rest 0. -/
def testState (words : List Word) (x1 x2 x3 : Word) : State :=
  (((State.boot words (.bytes [0x41#8]) (.fixed true)).setReg 1 x1).setReg 2 x2).setReg 3 x3

/-- What one step leaves, or `State.reset` where it leaves nothing. -/
def afterStep (s : State) : State :=
  match step s with
  | .next t => t
  | .fault _ => State.reset
  | .refused _ => State.reset

/-- A store with a second segment, two zero words at identifier 1, and identifier 2 free. -/
def testStore (words : List Word) : Memory :=
  { seg := [(0, Segment.ofWords words), (1, Segment.zeros 2)], free := [2#32], nextFresh := 3 }

/-- `testState` over `testStore`. -/
def testState1 (words : List Word) (x1 x2 x3 : Word) : State :=
  (testState words x1 x2 x3).setMem (testStore words)

/-- R-1, R-2. -/
theorem test_cmov :
    (afterStep (testState [0x00000053#32] 0xAAAAAAAA#32 7#32 5#32)).reg 1 = 7#32 ∧
    (afterStep (testState [0x00000053#32] 0xAAAAAAAA#32 7#32 0#32)).reg 1 = 0xAAAAAAAA#32 := by
  decide

/-- R-3, R-6. -/
theorem test_add :
    (afterStep (testState [0x30000053#32] 0xAAAAAAAA#32 0xFFFFFFFF#32 1#32)).reg 1 = 0#32 ∧
    (afterStep (testState [0x30000053#32] 0#32 0x7FFFFFFF#32 1#32)).reg 1 = 0x80000000#32 := by
  decide

/-- R-8, R-9. -/
theorem test_mul :
    (afterStep (testState [0x40000053#32] 0#32 0xFFFFFFFF#32 0xFFFFFFFF#32)).reg 1 = 1#32 ∧
    (afterStep (testState [0x40000053#32] 0#32 0x12345678#32 0x10#32)).reg 1 = 0x23456780#32 := by
  decide

/-- R-16. -/
theorem test_div :
    (afterStep (testState [0x50000053#32] 0#32 0xFFFFFFFF#32 2#32)).reg 1 = 0x7FFFFFFF#32 := by
  decide

/-- R-19: the fault, its record, and x1 as before. -/
theorem test_div_by_zero :
    (afterStep (testState [0x50000053#32] 0xAAAAAAAA#32 5#32 0#32)).fault =
      some { cause := .divideByZero, fpc := 0#32, fword := some 0x50000053#32 } ∧
    (afterStep (testState [0x50000053#32] 0xAAAAAAAA#32 5#32 0#32)).reg 1 = 0xAAAAAAAA#32 := by
  decide

/-- R-23, R-28. -/
theorem test_nand :
    (afterStep (testState [0x60000053#32] 0#32 0xF0F0F0F0#32 0xFF00FF00#32)).reg 1 =
      0x0FFF0FFF#32 ∧
    (afterStep (testState [0x60000052#32] 0#32 0x0000FFFF#32 0#32)).reg 1 = 0xFFFF0000#32 := by
  decide

/-- R-29, R-30. -/
theorem test_lv :
    (afterStep (testState [0xDFFFFFFF#32] 0#32 0#32 0#32)).reg 7 = 0x01FFFFFF#32 ∧
    (afterStep (testState [0xD2000000#32] 9#32 0#32 0#32)).reg 1 = 0#32 := by decide

/-- S-3: a program reads its own code. -/
theorem test_sload :
    (afterStep (testState [0x10000053#32, 0x70000000#32] 0#32 0#32 1#32)).reg 1 =
      0x70000000#32 := by decide

/-- S-1, S-2: past the end, and an identifier that is not mapped. -/
theorem test_sload_faults :
    (afterStep (testState [0x10000053#32, 0#32] 0#32 0#32 2#32)).fault =
      some { cause := .segmentOutOfBounds, fpc := 0#32, fword := some 0x10000053#32 } ∧
    (afterStep (testState [0x10000053#32] 0#32 5#32 0#32)).fault =
      some { cause := .unmappedSegment, fpc := 0#32, fword := some 0x10000053#32 } := by decide

/-- S-13. -/
theorem test_sstore :
    (afterStep (testState1 [0x20000053#32] 1#32 0#32 0x1234#32)).mem.segment 1#32 =
      some (Segment.ofWords [0x1234#32, 0#32]) := by decide

/-- S-8: a stale identifier. -/
theorem test_sstore_unmapped :
    (afterStep (testState1 [0x20000053#32] 2#32 0#32 0x1234#32)).answer =
      some (.fault .unmappedSegment 0#32 (some 0x20000053#32)) := by decide

/-- S-7: the size is read before the identifier is written. -/
theorem test_map :
    (afterStep (testState [0x80000012#32] 0#32 3#32 0#32)).reg 2 = 1#32 ∧
    (afterStep (testState [0x80000012#32] 0#32 3#32 0#32)).mem.segment 1#32 =
      some (Segment.ofWords [0#32, 0#32, 0#32]) ∧
    (afterStep (testState [0x80000012#32] 0#32 3#32 0#32)).mem.nextFresh = 2 := by decide

/-- S-5, one step of it: the head of the free pool comes back before a new identifier. -/
theorem test_map_reuses :
    (afterStep (testState1 [0x80000013#32] 0#32 0#32 1#32)).reg 2 = 2#32 ∧
    (afterStep (testState1 [0x80000013#32] 0#32 0#32 1#32)).mem.free = [] := by decide

/-- S-9, its first release. -/
theorem test_unmap :
    (afterStep (testState1 [0x90000001#32] 1#32 0#32 0#32)).mem.segment 1#32 = none ∧
    (afterStep (testState1 [0x90000001#32] 1#32 0#32 0#32)).mem.free = [1#32, 2#32] := by decide

/-- S-10. -/
theorem test_unmap_zero :
    (afterStep (testState [0x90000000#32] 0#32 0#32 0#32)).answer =
      some (.fault .releaseProgramSegment 0#32 (some 0x90000000#32)) := by decide

/-- K-1. -/
theorem test_halt :
    (afterStep (testState [0x70000000#32] 0#32 0#32 0#32)).answer = some .halt ∧
    (afterStep (testState [0x70000000#32] 0#32 0#32 0#32)).pc = 1#32 := by decide

/-- K-3. -/
theorem test_out :
    (afterStep (testState [0xA0000003#32] 0#32 0#32 255#32)).outq = [0xFF#8] := by decide

/-- K-4. -/
theorem test_out_range :
    (afterStep (testState [0xA0000003#32] 0#32 0#32 256#32)).answer =
      some (.fault .outputRange 0#32 (some 0xA0000003#32)) := by decide

/-- K-5: a byte, and then the end of the stream. -/
theorem test_in :
    (afterStep (testState [0xB0000003#32] 0#32 0#32 9#32)).reg 3 = 0x41#32 ∧
    (afterStep { testState [0xB0000003#32] 0#32 0#32 9#32 with input := .bytes [] }).reg 3 =
      0xFFFFFFFF#32 := by decide

/-- L1-5: segment 0 becomes the copy, the pc the target. -/
theorem test_loadp :
    (afterStep (testState1 [0xC000000A#32] 1#32 4#32 0#32)).mem.segment 0#32 =
      some (Segment.zeros 2) ∧
    (afterStep (testState1 [0xC000000A#32] 1#32 4#32 0#32)).pc = 4#32 := by decide

/-- K-6, and K-7 at its second step: no check of the target of a jump. -/
theorem test_loadp_unmapped_and_jump :
    (afterStep (testState [0xC0000013#32] 0#32 7#32 0#32)).answer =
      some (.fault .unmappedSegment 0#32 (some 0xC0000013#32)) ∧
    (afterStep (testState [0xC0000003#32] 0#32 0#32 100#32)).pc = 100#32 := by decide

/-- D-1, D-3. -/
theorem test_fetch_and_dispatch_faults :
    (afterStep (testState [] 0#32 0#32 0#32)).answer = some (.fault .fetchOutOfBounds 0#32 none) ∧
    (afterStep (testState [0xE0000000#32] 0#32 0#32 0#32)).answer =
      some (.fault .invalidOpcode 0#32 (some 0xE0000000#32)) ∧
    (afterStep (testState [0xE0000000#32] 0#32 0#32 0#32)).pc = 1#32 := by decide

/-- `State.reset` is what Load of the empty image leaves (log entry 5). -/
theorem test_reset_is_load_of_empty_image : load [] .oracle .platform = .ok State.reset := rfl

/-- D-7, R235: nothing sent, and the source at its first item. -/
theorem test_load_starts_channels :
    (State.boot [0x70000000#32] .oracle .platform).input = .oracle 0 ∧
    (State.boot [0x70000000#32] (.bytes [0x41#8, 0x42#8]) .platform).input.item = some 0x41#8 ∧
    (State.boot [0x70000000#32] .oracle .platform).outq = [] := by decide

/-- D-5, D-6. -/
theorem test_image :
    imageWords [0xD0#8, 0x00#8, 0x8F#8, 0x8F#8, 0x70#8, 0x00#8, 0x00#8, 0x00#8] =
      .ok [0xD0008F8F#32, 0x70000000#32] ∧
    imageWords [0#8, 0#8, 0#8, 0#8, 0#8] = .error .lengthNotMultipleOf4 := by decide

/-- P2, line 4: the text and the word of a line. -/
theorem test_assembler :
    lineText (.instr (.sstore 1 3 4)) = "sstore r1, r3, r4" ∧
    assemble [.instr (.sstore 1 3 4), .word 7#32] = .ok [0x2000005C#32, 7#32] := by decide

/-! ## Witnesses: states and operands that meet the hypotheses of each statement, clause by clause -/

/-- A store whose identifiers 0 and 1 are mapped and whose free pool is empty. -/
def testFresh : Memory :=
  { seg := [(0, Segment.ofWords [0x70000000#32]), (1, Segment.zeros 2)], free := [],
    nextFresh := 2 }

/-- `testStore` with the one-word program HALT. -/
def haltStore : Memory := testStore [0x70000000#32]

/-- Unmapped from 2 up: what the two stores above have in common. -/
theorem testTable_unmapped (g g' : Segment) {id : Word} (h : 2 ≤ id.toNat) :
    tableGet [(0, g), (1, g')] id.toNat = none := by
  have h0 : ¬ 0 = id.toNat := by omega
  have h1 : ¬ 1 = id.toNat := by omega
  simp only [tableGet, h0, h1, if_false]

/-- `haltStore` has the store's invariants. -/
theorem witness_inv : haltStore.Inv where
  canonical := by decide
  programMapped := by decide
  zeroNotFree := by decide
  freeUnmapped id h := by
    have : id = 2#32 := List.mem_singleton.1 h
    subst this; decide
  freeNodup := by decide
  freeMinted id h := by
    have : id = 2#32 := List.mem_singleton.1 h
    subst this; decide
  nextPositive := by decide
  nextBounded := by decide
  freshUnmapped id h :=
    testTable_unmapped _ _ (le_trans (by decide : 2 ≤ haltStore.nextFresh) h)
  mintedAccounted id h1 h2 := by
    have h2 : id.toNat < 3 := h2
    rcases (by simp; omega : id.toNat = (1#32).toNat ∨ id.toNat = (2#32).toNat) with h | h
    · have : id = 1#32 := BitVec.eq_of_toNat_eq h
      subst this; exact .inl (by decide)
    · have : id = 2#32 := BitVec.eq_of_toNat_eq h
      subst this; exact .inr (by decide)
  idsDistinct := by decide

/-- `testFresh` has the store's invariants. -/
theorem witness_inv_fresh : testFresh.Inv where
  canonical := by decide
  programMapped := by decide
  zeroNotFree := by decide
  freeUnmapped _ h := absurd h List.not_mem_nil
  freeNodup := by decide
  freeMinted _ h := absurd h List.not_mem_nil
  nextPositive := by decide
  nextBounded := by decide
  freshUnmapped _ h := testTable_unmapped _ _ h
  mintedAccounted id h1 h2 := by
    have h2 : id.toNat < 2 := h2
    have : id = 1#32 := BitVec.eq_of_toNat_eq (show id.toNat = (1#32).toNat by simp; omega)
    subst this; exact .inl (by decide)
  idsDistinct := by decide

/-! Codec and encodings -/

/-- The field ends at bit 31, and the whole word. -/
theorem witness_ExtractReadsTheField : 4 + 28 ≤ 32 ∧ 32 + 0 ≤ 32 := by decide

/-- One bit past the word. -/
theorem witness_CodecContractIsRaised : 32 < 4 + 29 ∧ 32 < 33 + 0 := by decide

theorem witness_FitsMeansBelowThePower : 32 ≤ 32 := by decide

/-- The three clauses: the widest value of a field, one more, and a field past the word. -/
theorem witness_PackReplacesOnlyTheField :
    (3 + 29 ≤ 32 ∧ 7 < 2 ^ 3) ∧ (3 + 29 ≤ 32 ∧ 2 ^ 3 ≤ 8) ∧ 32 < 3 + 30 := by decide

theorem witness_PackThenExtractGivesTheValue :
    8 + 8 ≤ 32 ∧ 0xAB < 2 ^ 8 ∧ (7 < 32 ∧ (7 < 8 ∨ 8 + 8 ≤ 7)) ∧
      (16 < 32 ∧ (16 < 8 ∨ 8 + 8 ≤ 16)) := by decide

/-- A word for each opcode with A = 1, B = 2, C = 3; the LV word of E-5; the invalid word of E-8. -/
theorem witness_DecoderFollowsTheOpcodeMap :
    (∀ op : Fin 13, bitsAt (BitVec.ofNat 32 (op.val * 2 ^ 28 + 0x53)) 31 28 = op.val ∧
      bitsAt (BitVec.ofNat 32 (op.val * 2 ^ 28 + 0x53)) 8 6 = (1 : Reg).val ∧
      bitsAt (BitVec.ofNat 32 (op.val * 2 ^ 28 + 0x53)) 5 3 = (2 : Reg).val ∧
      bitsAt (BitVec.ofNat 32 (op.val * 2 ^ 28 + 0x53)) 2 0 = (3 : Reg).val) ∧
    (bitsAt 0xDFFFFFFF#32 31 28 = 13 ∧ bitsAt 0xDFFFFFFF#32 27 25 = (7 : Reg).val ∧
      bitsAt 0xDFFFFFFF#32 24 0 = (0x1FFFFFF#32).toNat) ∧
    14 ≤ bitsAt 0xE0000000#32 31 28 := by decide

/-- Two different words with the same fields, for each clause. -/
theorem witness_IgnoredBitsDoNotMatter :
    (bitsAt 0x6FFFFE53#32 31 28 = bitsAt 0x60000053#32 31 28 ∧ bitsAt 0x6FFFFE53#32 31 28 ≤ 6 ∧
      bitsAt 0x6FFFFE53#32 8 0 = bitsAt 0x60000053#32 8 0) ∧
    (bitsAt 0x7FFFFFFF#32 31 28 = bitsAt 0x70000000#32 31 28 ∧
      bitsAt 0x7FFFFFFF#32 31 28 = 7) ∧
    (bitsAt 0x8FFFFFD3#32 31 28 = bitsAt 0x80000013#32 31 28 ∧
      (bitsAt 0x8FFFFFD3#32 31 28 = 8 ∨ bitsAt 0x8FFFFFD3#32 31 28 = 12) ∧
      bitsAt 0x8FFFFFD3#32 5 0 = bitsAt 0x80000013#32 5 0) ∧
    (bitsAt 0xBFFFFFFB#32 31 28 = bitsAt 0xB0000003#32 31 28 ∧ 9 ≤ bitsAt 0xBFFFFFFB#32 31 28 ∧
      bitsAt 0xBFFFFFFB#32 31 28 ≤ 11 ∧ bitsAt 0xBFFFFFFB#32 2 0 = bitsAt 0xB0000003#32 2 0) ∧
    bitsAt 0xDFFFFFFF#32 31 28 ≤ 13 := by decide

theorem witness_EncodersGiveTheClosedForms :
    (15 < 16 ∧ 7 < 8) ∧ (16 ≤ 16 ∨ 8 ≤ 0 ∨ 8 ≤ 0 ∨ 8 ≤ 0) ∧ (16 ≤ 0 ∨ 8 ≤ 8 ∨ 8 ≤ 0 ∨ 8 ≤ 0) ∧
    (7 < 8 ∧ 0x1FFFFFF < 2 ^ 25) ∧ (8 ≤ 8 ∨ 2 ^ 25 ≤ 0) ∧ (8 ≤ 0 ∨ 2 ^ 25 ≤ 0x2000000) := by
  decide

theorem witness_DecodeInvertsEncode :
    (Instr.lv 7 0x1FFFFFF#32).wellFormed = true ∧ (Instr.lv 7 0x2000000#32).wellFormed = false ∧
    decode 0x3FFFFE53#32 = .instr (.add 1 2 3) := by decide

theorem witness_AssembledProgramDecodesToItsLines :
    (∀ i, AsmLine.instr i ∈ [AsmLine.instr (.lv 7 0x1FFFFFF#32), .word 0xFFFFFFFF#32] →
      i.wellFormed = true) ∧
    (AsmLine.instr (.lv 0 0x2000000#32) ∈ [AsmLine.word 0#32, .instr (.lv 0 0x2000000#32)] ∧
      (Instr.lv 0 0x2000000#32).wellFormed = false) := by
  refine ⟨fun i h => ?_, by decide⟩
  simp at h
  subst h
  decide

/-! Instructions -/

/-- The premises of the decoding clause, at the word of E-1 with its opcode changed: CMOV, ADD, MUL
and NAND have no other hypothesis. -/
theorem witness_CmovAddMulNand :
    ∀ op : Fin 7, bitsAt (BitVec.ofNat 32 (op.val * 2 ^ 28 + 0x53)) 31 28 = op.val ∧
      bitsAt (BitVec.ofNat 32 (op.val * 2 ^ 28 + 0x53)) 8 6 = (1 : Reg).val ∧
      bitsAt (BitVec.ofNat 32 (op.val * 2 ^ 28 + 0x53)) 5 3 = (2 : Reg).val ∧
      bitsAt (BitVec.ofNat 32 (op.val * 2 ^ 28 + 0x53)) 2 0 = (3 : Reg).val := by decide

theorem witness_DivIsTheQuotientOrFaults :
    (testState [] 0#32 10#32 1#32).reg 3 ≠ 0#32 ∧ (testState [] 0#32 10#32 0#32).reg 3 = 0#32 := by
  decide

theorem witness_LvLoadsTheImmediate :
    (bitsAt 0xDFFFFFFF#32 31 28 = 13 ∧ bitsAt 0xDFFFFFFF#32 27 25 = (7 : Reg).val) ∧
    (0x1FFFFFF#32).toNat < 2 ^ 25 ∧ 2 ^ 25 ≤ 0x2000000 := by decide

theorem witness_LvWithoutAnEncodingIsNeverDecoded : 2 ^ 25 ≤ (0x2000000#32).toNat := by decide

/-- `sload r1, r2, r3`: the last word of segment 1, an unmapped segment, one word past the end. -/
theorem witness_SloadReadsTheAddressedWord :
    ((testState1 [] 0#32 1#32 1#32).mem.segment ((testState1 [] 0#32 1#32 1#32).reg 2) =
        some (Segment.zeros 2) ∧
      ((testState1 [] 0#32 1#32 1#32).reg 3).toNat < (Segment.zeros 2).len) ∧
    (testState1 [] 0#32 2#32 1#32).mem.segment ((testState1 [] 0#32 2#32 1#32).reg 2) = none ∧
    ((testState1 [] 0#32 1#32 2#32).mem.segment ((testState1 [] 0#32 1#32 2#32).reg 2) =
        some (Segment.zeros 2) ∧
      (Segment.zeros 2).len ≤ ((testState1 [] 0#32 1#32 2#32).reg 3).toNat) := by decide

/-- `sstore r1, r2, r3`, the same three clauses. -/
theorem witness_SstoreWritesTheAddressedWord :
    (storeAddress (testState1 [] 1#32 1#32 7#32) 1 2 = (1#32, 1#32) ∧
      (testState1 [] 1#32 1#32 7#32).mem.segment 1#32 = some (Segment.zeros 2) ∧
      (1#32).toNat < (Segment.zeros 2).len) ∧
    (storeAddress (testState1 [] 2#32 1#32 7#32) 1 2 = (2#32, 1#32) ∧
      (testState1 [] 2#32 1#32 7#32).mem.segment 2#32 = none) ∧
    (storeAddress (testState1 [] 1#32 2#32 7#32) 1 2 = (1#32, 2#32) ∧
      (testState1 [] 1#32 2#32 7#32).mem.segment 1#32 = some (Segment.zeros 2) ∧
      (Segment.zeros 2).len ≤ (2#32).toNat) := by decide

/-- `map r2, r3` with a free identifier, and with none, in stores that have the invariants. -/
theorem witness_MapGivesANewZeroSegment :
    (((testState [] 0#32 0#32 3#32).setMem haltStore).mem.free = 2#32 :: [] ∧
      ((testState [] 0#32 0#32 3#32).setMem haltStore).allocOk 3#32 = true ∧
      ((testState [] 0#32 0#32 3#32).setMem haltStore).mem.Inv) ∧
    ((2#32).toNat = ((testState [] 0#32 0#32 3#32).setMem testFresh).mem.nextFresh ∧
      ((testState [] 0#32 0#32 3#32).setMem testFresh).mem.free = [] ∧
      ((testState [] 0#32 0#32 3#32).setMem testFresh).allocOk 3#32 = true ∧
      ((testState [] 0#32 0#32 3#32).setMem testFresh).mem.Inv) :=
  ⟨⟨rfl, rfl, witness_inv⟩, rfl, rfl, rfl, witness_inv_fresh⟩

/-- The boundaries of `map`: the last identifier, none left, and a platform without storage. -/
theorem witness_MapGivesANewZeroSegment_boundary :
    ((0xFFFFFFFF#32).toNat = ({ testFresh with nextFresh := 2 ^ 32 - 1 } : Memory).nextFresh ∧
      ({ testFresh with nextFresh := 2 ^ 32 - 1 } : Memory).free = []) ∧
    (({ testFresh with nextFresh := 2 ^ 32 } : Memory).free = [] ∧
      2 ^ 32 ≤ ({ testFresh with nextFresh := 2 ^ 32 } : Memory).nextFresh) ∧
    State.allocOk { State.reset with alloc := .fixed false } 3#32 = false := by decide

theorem witness_UnmapReleasesTheSegment :
    ((testState1 [] 1#32 0#32 0#32).reg 1 ≠ 0#32 ∧
      (testState1 [] 1#32 0#32 0#32).mem.segment ((testState1 [] 1#32 0#32 0#32).reg 1) =
        some (Segment.zeros 2)) ∧
    (testState1 [] 0#32 0#32 0#32).reg 1 = 0#32 ∧
    ((testState1 [] 2#32 0#32 0#32).reg 1 ≠ 0#32 ∧
      (testState1 [] 2#32 0#32 0#32).mem.segment ((testState1 [] 2#32 0#32 0#32).reg 1) =
        none) := by decide

theorem witness_HaltStopsTheRun : bitsAt 0x7FFFFFFF#32 31 28 = 7 := by decide

theorem witness_OutSendsOneByte :
    ((testState [] 0#32 0#32 255#32).reg 3).toNat < 256 ∧
    256 ≤ ((testState [] 0#32 0#32 256#32).reg 3).toNat := by decide

/-- A byte to come, the end of the stream, and the open source. -/
theorem witness_InTakesOneItem :
    ((testState [] 0#32 0#32 0#32).input = .bytes (0x41#8 :: []) ∧
      (testState [] 0#32 0#32 0#32).input.item = some 0x41#8) ∧
    ({ State.reset with input := .bytes [] } : State).input.item = none ∧
    State.reset.input = .oracle 0 := by decide

/-- `loadp r1, r2`: a jump, a replacement, an unmapped source. -/
theorem witness_LoadpReplacesTheProgramAndJumps :
    (testState1 [] 0#32 0#32 0#32).reg 1 = 0#32 ∧
    ((testState1 [] 1#32 0#32 0#32).reg 1 ≠ 0#32 ∧
      (testState1 [] 1#32 0#32 0#32).mem.segment ((testState1 [] 1#32 0#32 0#32).reg 1) =
        some (Segment.zeros 2)) ∧
    ((testState1 [] 2#32 0#32 0#32).reg 1 ≠ 0#32 ∧
      (testState1 [] 2#32 0#32 0#32).mem.segment ((testState1 [] 2#32 0#32 0#32).reg 1) =
        none) := by decide

/-! The store -/

/-- Reads and writes: unmapped, one past the end, the last word; and a mapped segment 0. -/
theorem witness_SegReadAndSegWrite :
    haltStore.segment 2#32 = none ∧
    (haltStore.segment 1#32 = some (Segment.zeros 2) ∧ (Segment.zeros 2).len ≤ (2#32).toNat) ∧
    (haltStore.segment 1#32 = some (Segment.zeros 2) ∧ (1#32).toNat < (Segment.zeros 2).len) ∧
    haltStore.segment 0#32 = some (Segment.ofWords [0x70000000#32]) := by decide

/-- A free identifier, a fresh one (with the invariants), the last one, and none. -/
theorem witness_AllocateReusesThenMints :
    (haltStore.free = 2#32 :: [] ∧ haltStore.Inv) ∧
    (testFresh.free = [] ∧ testFresh.nextFresh ≤ 2 ^ 32 - 1 ∧ testFresh.Inv) ∧
    (({ testFresh with nextFresh := 2 ^ 32 - 1 } : Memory).free = [] ∧
      ({ testFresh with nextFresh := 2 ^ 32 - 1 } : Memory).nextFresh ≤ 2 ^ 32 - 1) ∧
    (({ testFresh with nextFresh := 2 ^ 32 } : Memory).free = [] ∧
      2 ^ 32 ≤ ({ testFresh with nextFresh := 2 ^ 32 } : Memory).nextFresh) :=
  ⟨⟨rfl, witness_inv⟩, ⟨rfl, by decide, witness_inv_fresh⟩, by decide, by decide⟩

theorem witness_ReleaseUnmapsAndPushes :
    (1#32 ≠ 0#32 ∧ haltStore.segment 1#32 = some (Segment.zeros 2)) ∧
    (2#32 ≠ 0#32 ∧ haltStore.segment 2#32 = none) := by decide

/-- The three clauses, and a write after the replacement to either segment. -/
theorem witness_ReplaceProgramCopiesIndependently :
    haltStore.segment 2#32 = none ∧
    haltStore.segment 0#32 = some (Segment.ofWords [0x70000000#32]) ∧
    (haltStore.segment 1#32 = some (Segment.zeros 2) ∧ 1#32 ≠ 0#32) ∧
    ∃ m mA mB, haltStore.replaceProgram 1#32 = .ok m ∧
      m.segWrite 0#32 1#32 5#32 = .ok mA ∧ m.segWrite 1#32 1#32 5#32 = .ok mB :=
  ⟨by decide, by decide, by decide, _, _, _, rfl, rfl, rfl⟩

theorem witness_CreateHoldsTheInitialWords :
    [5#32, 6#32][(1#32).toNat]? = some 6#32 ∧ (1#32 : Word) ≠ 0#32 := by decide

theorem witness_ReleasedIdentifiersComeBackInReverse :
    [1#32, 2#32].Nodup ∧ [7#32, 0#32].length = [1#32, 2#32].length ∧
    ∀ id ∈ [1#32, 2#32], id ≠ 0#32 ∧
      (haltStore.setSegment 2#32 (Segment.zeros 1)).segment id ≠ none := by
  refine ⟨by decide, by decide, fun id h => ?_⟩
  rcases List.mem_cons.1 h with rfl | h
  · decide
  · have : id = 2#32 := List.mem_singleton.1 h
    subst this; decide

/-! The step cycle -/

theorem witness_StepRunsTheDecodedInstruction :
    (testState [0x3FFFFE53#32] 0#32 0#32 0#32).run = .running ∧
    (testState [0x3FFFFE53#32] 0#32 0#32 0#32).mem.fetch
      (testState [0x3FFFFE53#32] 0#32 0#32 0#32).pc = .ok 0x3FFFFE53#32 ∧
    decode 0x3FFFFE53#32 = .instr (.add 1 2 3) := by decide

/-- One word past the end of segment 0, and its last word. -/
theorem witness_FetchPastTheEndFaults :
    (((testState1 [7#32] 0#32 0#32 0#32).setPc 1#32).run = .running ∧
      (testState1 [7#32] 0#32 0#32 0#32).mem.segment 0#32 = some (Segment.ofWords [7#32]) ∧
      (Segment.ofWords [7#32]).len ≤ ((testState1 [7#32] 0#32 0#32 0#32).setPc 1#32).pc.toNat) ∧
    (testState1 [7#32] 0#32 0#32 0#32).pc.toNat < (Segment.ofWords [7#32]).len := by decide

theorem witness_InvalidOpcodeFaults :
    Fetches (testState [0xE0000000#32] 0#32 0#32 0#32) 0xE0000000#32 ∧
    14 ≤ bitsAt 0xE0000000#32 31 28 := ⟨⟨rfl, by decide⟩, by decide⟩

/-- A LOADP that does not fault, and an ADD. -/
theorem witness_PcAdvancesUnlessLoadp :
    (Fetches (testState [0xC0000003#32] 0#32 0#32 9#32) 0xC0000003#32 ∧
      bitsAt 0xC0000003#32 2 0 = (3 : Reg).val ∧
      ∃ t, step (testState [0xC0000003#32] 0#32 0#32 9#32) = .next t ∧ t.run = .running) ∧
    (Fetches (testState [0x30000053#32] 0#32 0#32 9#32) 0x30000053#32 ∧
      bitsAt 0x30000053#32 2 0 = (3 : Reg).val ∧
      ∃ t, step (testState [0x30000053#32] 0#32 0#32 9#32) = .next t) :=
  ⟨⟨⟨rfl, by decide⟩, by decide, _, rfl, rfl⟩, ⟨rfl, by decide⟩, by decide, _, rfl⟩

/-- A HALT, and an ADD that does not fault. -/
theorem witness_OnlyHaltHalts :
    (Fetches (testState [0x7FFFFFFF#32] 0#32 0#32 0#32) 0x7FFFFFFF#32 ∧
      bitsAt 0x7FFFFFFF#32 31 28 = 7 ∧
      ∃ t, step (testState [0x7FFFFFFF#32] 0#32 0#32 0#32) = .next t) ∧
    (Fetches (testState [0x30000053#32] 0#32 0#32 0#32) 0x30000053#32 ∧
      bitsAt 0x30000053#32 31 28 ≠ 7 ∧
      ∃ t, step (testState [0x30000053#32] 0#32 0#32 0#32) = .next t ∧ t.run ≠ .faulted) :=
  ⟨⟨⟨rfl, by decide⟩, by decide, _, rfl⟩, ⟨rfl, by decide⟩, by decide, _, rfl, by decide⟩

theorem witness_NoStepOnceStopped :
    State.reset.stop.run = .halted ∧
    (State.reset.raise .divideByZero 0#32 (some 0x50000053#32)).run = .faulted ∧
    State.reset.stop.run ≠ .running := by decide

/-- A step of each answer. -/
theorem witness_StepAnswersItsRunState :
    (∃ t, step (testState [0x30000053#32] 0#32 0#32 0#32) = .next t ∧ t.run = .running) ∧
    (∃ t, step (testState [0x70000000#32] 0#32 0#32 0#32) = .next t ∧ t.run = .halted) ∧
    ∃ t, step (testState [0x50000053#32] 0#32 0#32 0#32) = .next t ∧ t.run = .faulted :=
  ⟨⟨_, rfl, rfl⟩, ⟨_, rfl, rfl⟩, ⟨_, rfl, rfl⟩⟩

/-- A fault of a handler, and one of a fetch. -/
theorem witness_FaultingStepChangesNothingElse :
    (∃ t, step (testState [0x50000053#32] 0#32 5#32 0#32) = .next t ∧ t.run = .faulted) ∧
    ∃ t, step (testState [] 0#32 0#32 0#32) = .next t ∧ t.run = .faulted :=
  ⟨⟨_, rfl, rfl⟩, ⟨_, rfl, rfl⟩⟩

/-- Each of the eight causes of a run comes from a step. -/
theorem witness_FaultCausesFollowTheTable :
    [afterStep (testState [0xE0000000#32] 0#32 0#32 0#32), afterStep (testState [] 0#32 0#32 0#32),
      afterStep (testState [0xC0000013#32] 0#32 7#32 0#32),
      afterStep (testState [0x10000053#32] 0#32 0#32 1#32),
      afterStep (testState [0x50000053#32] 0#32 0#32 0#32),
      afterStep (testState [0xA0000003#32] 0#32 0#32 256#32),
      afterStep (testState [0x90000000#32] 0#32 0#32 0#32),
      afterStep { testState [0x80000013#32] 0#32 0#32 1#32 with alloc := .fixed false }].map
        (fun t => t.fault.map FaultRecord.cause) =
    [some .invalidOpcode, some .fetchOutOfBounds, some .unmappedSegment, some .segmentOutOfBounds,
      some .divideByZero, some .outputRange, some .releaseProgramSegment,
      some .allocationFailure] := by decide

/-- Steps that change the destination of each row of the table. -/
theorem witness_RegistersWrittenFollowTheTable :
    (∃ t, step (testState [0x00000053#32] 0#32 7#32 5#32) = .next t ∧
      t.reg 1 ≠ (testState [0x00000053#32] 0#32 7#32 5#32).reg 1) ∧
    (∃ t, step (testState [0x30000053#32] 0#32 7#32 5#32) = .next t ∧
      t.reg 1 ≠ (testState [0x30000053#32] 0#32 7#32 5#32).reg 1) ∧
    (∃ t, step (testState [0x80000013#32] 0#32 7#32 5#32) = .next t ∧
      t.reg 2 ≠ (testState [0x80000013#32] 0#32 7#32 5#32).reg 2) ∧
    (∃ t, step (testState [0xB0000003#32] 0#32 7#32 5#32) = .next t ∧
      t.reg 3 ≠ (testState [0xB0000003#32] 0#32 7#32 5#32).reg 3) ∧
    ∃ t, step (testState [0xDFFFFFFF#32] 0#32 7#32 5#32) = .next t ∧
      t.reg 7 ≠ (testState [0xDFFFFFFF#32] 0#32 7#32 5#32).reg 7 :=
  ⟨⟨_, rfl, by decide⟩, ⟨_, rfl, by decide⟩, ⟨_, rfl, by decide⟩, ⟨_, rfl, by decide⟩,
    ⟨_, rfl, by decide⟩⟩

/-- An ADD, an SSTORE and an UNMAP, for the three clauses. -/
theorem witness_StoreChangedOnlyBySegmentOps :
    (Fetches (testState [0x30000053#32] 0#32 0#32 0#32) 0x30000053#32 ∧
      bitsAt 0x30000053#32 31 28 ∉ [2, 8, 9, 12] ∧
      ∃ t, step (testState [0x30000053#32] 0#32 0#32 0#32) = .next t) ∧
    (Fetches (testState1 [0x20000053#32] 1#32 1#32 5#32) 0x20000053#32 ∧
      bitsAt 0x20000053#32 31 28 ∉ [8, 9] ∧
      ∃ t, step (testState1 [0x20000053#32] 1#32 1#32 5#32) = .next t) ∧
    (Fetches (testState1 [0x90000001#32] 1#32 0#32 0#32) 0x90000001#32 ∧
      bitsAt 0x90000001#32 31 28 = 9 ∧
      ∃ t, step (testState1 [0x90000001#32] 1#32 0#32 0#32) = .next t) :=
  ⟨⟨⟨rfl, by decide⟩, by decide, _, rfl⟩, ⟨⟨rfl, by decide⟩, by decide, _, rfl⟩,
    ⟨rfl, by decide⟩, by decide, _, rfl⟩

theorem witness_ChannelsUsedOnlyByOutAndIn :
    (∃ t, step (testState [0xA0000003#32] 0#32 0#32 255#32) = .next t ∧ t.outq ≠ []) ∧
    ∃ t, step (testState [0xB0000003#32] 0#32 0#32 0#32) = .next t ∧
      t.input ≠ (testState [0xB0000003#32] 0#32 0#32 0#32).input :=
  ⟨⟨_, rfl, by decide⟩, ⟨_, rfl, by decide⟩⟩

/-- A state with the invariants that steps, keeping segment 1 mapped: for
MappedSegmentsKeepTheirLength and StepKeepsStoreInvariants. -/
theorem witness_StepsWithInvariants :
    ((testState [] 0#32 0#32 0#32).setMem haltStore).mem.Inv ∧
    ∃ t, step ((testState [] 0#32 0#32 0#32).setMem haltStore) = .next t ∧
      ((testState [] 0#32 0#32 0#32).setMem haltStore).mem.segment 1#32 =
        some (Segment.zeros 2) ∧
      t.mem.segment 1#32 = some (Segment.zeros 2) :=
  ⟨witness_inv, _, rfl, by decide, by decide⟩

/-- `sstore r1, r2, r3` into its own word, and `loadp r1, r2` from segment 1. -/
theorem witness_StoresAreSeenByTheNextFetch :
    (Fetches (testState [0x20000053#32] 0#32 0#32 5#32) 0x20000053#32 ∧
      decode 0x20000053#32 = .instr (.sstore 1 2 3) ∧
      (testState [0x20000053#32] 0#32 0#32 5#32).reg 1 = 0#32 ∧
      (testState [0x20000053#32] 0#32 0#32 5#32).mem.segment 0#32 =
        some (Segment.ofWords [0x20000053#32]) ∧
      ((testState [0x20000053#32] 0#32 0#32 5#32).reg 2).toNat <
        (Segment.ofWords [0x20000053#32]).len) ∧
    (Fetches (testState1 [0xC000000A#32] 1#32 4#32 0#32) 0xC000000A#32 ∧
      decode 0xC000000A#32 = .instr (.loadp 1 2) ∧
      (testState1 [0xC000000A#32] 1#32 4#32 0#32).reg 1 ≠ 0#32 ∧
      (testState1 [0xC000000A#32] 1#32 4#32 0#32).mem.segment
        ((testState1 [0xC000000A#32] 1#32 4#32 0#32).reg 1) = some (Segment.zeros 2)) :=
  ⟨⟨⟨rfl, by decide⟩, by decide⟩, ⟨rfl, by decide⟩, by decide⟩

theorem witness_PcIncrementNeverWraps :
    ((testState [] 0#32 0#32 0#32).setMem haltStore).mem.Inv ∧
    Fetches ((testState [] 0#32 0#32 0#32).setMem haltStore) 0x70000000#32 :=
  ⟨witness_inv, rfl, by decide⟩

theorem witness_StepKeepsFaultRecordConsistent :
    (testState [0x50000053#32] 0#32 0#32 0#32).RecordConsistent ∧
    ∃ t, step (testState [0x50000053#32] 0#32 0#32 0#32) = .next t :=
  ⟨⟨by decide, fun _ h => nomatch h⟩, _, rfl⟩

/-! Loading -/

/-- For the three statements about loaded states; the open source, and the reference one. -/
theorem witness_Load :
    (∃ s, load [5#32, 0x70000000#32] .oracle .platform = .ok s) ∧
    (∃ s, load [] (.bytes [0x41#8]) (.fixed true) = .ok s) ∧
    [5#32, 0x70000000#32][(1#32).toNat]? = some 0x70000000#32 ∧ (1#32 : Word) ≠ 0#32 :=
  ⟨⟨_, rfl⟩, ⟨_, rfl⟩, by decide, by decide⟩

theorem witness_HostParametersAreCarried :
    State.reset.alloc = .platform ∧ (testState [] 0#32 0#32 0#32).alloc = .fixed true ∧
    (∃ s, load [5#32] .oracle .platform = .ok s) ∧
    ∃ t, step State.reset = .next t := ⟨rfl, rfl, ⟨_, rfl⟩, ⟨_, rfl⟩⟩

/-- Both kinds of source, and a list with nothing in it. -/
theorem witness_LoadStartsAtTheFirstItem :
    (∃ s, load [5#32] .oracle .platform = .ok s) ∧
    (∃ s, load [5#32] (.bytes [0x41#8, 0x42#8]) .platform = .ok s) ∧
    ∃ s, load [5#32] (.bytes []) .platform = .ok s := ⟨⟨_, rfl⟩, ⟨_, rfl⟩, ⟨_, rfl⟩⟩

theorem witness_ImageWordsAreBigEndian :
    [0xD0#8, 0x00#8, 0x8F#8, 0x8F#8].length % 4 = 0 ∧
    imageWords [0xD0#8, 0x00#8, 0x8F#8, 0x8F#8] = .ok [0xD0008F8F#32] := by decide

/-- Five bytes; 2^34 bytes, the shortest image that is too long; the longest that is not. -/
theorem witness_BadImagesAreRefused :
    (List.replicate 5 0#8).length % 4 ≠ 0 ∧
    ((List.replicate (2 ^ 34) 0#8).length % 4 = 0 ∧
      2 ^ 32 ≤ (List.replicate (2 ^ 34) 0#8).length / 4) ∧
    ((List.replicate (2 ^ 34 - 4) 0#8).length % 4 = 0 ∧
      (List.replicate (2 ^ 34 - 4) 0#8).length / 4 < 2 ^ 32) := by
  simp only [List.length_replicate]
  decide

theorem witness_StatusReadOnlyAfterTheRun :
    State.reset.stop.run ≠ .running ∧ State.reset.run = .running := by decide

end Sys2Proof.Tests
end

section
/-! Proofs: the parameters of a run, the input source and the allocation predicate (spec/00_scope.md
R6), and that no step changes the predicate. -/

namespace Sys2Proof.Machine

/-- All that `load` can answer with success: the boot state of an image that is not too long. -/
theorem load_eq_ok_iff {words : List Word} {input : HostInput} {alloc : AllocPolicy} {s : State} :
    load words input alloc = .ok s ↔ words.length < 2 ^ 32 ∧ s = State.boot words input alloc := by
  unfold load
  by_cases h : words.length < 2 ^ 32
  · simp only [h, if_true, true_and, Except.ok.injEq, eq_comm]
  · simp only [h, if_false, false_and, reduceCtorEq]

@[simp] theorem State.boot_input (words : List Word) (input : HostInput) (alloc : AllocPolicy) :
    (State.boot words input alloc).input = input.start := rfl

@[simp] theorem State.boot_alloc (words : List Word) (input : HostInput) (alloc : AllocPolicy) :
    (State.boot words input alloc).alloc = alloc := rfl

theorem State.allocOk_platform {s : State} (size : Word) (h : s.alloc = .platform) :
    s.allocOk size = Config.allocOk s.mem size := by
  simp only [State.allocOk, h]

theorem State.allocOk_fixed {s : State} {answer : Bool} (size : Word)
    (h : s.alloc = .fixed answer) : s.allocOk size = answer := by
  simp only [State.allocOk, h]

@[simp] theorem State.fetchFault_alloc (s : State) (c : Cause) :
    (s.fetchFault c).alloc = s.alloc := rfl

@[simp] theorem State.invalidFault_alloc (s : State) (w : Word) :
    (s.invalidFault w).alloc = s.alloc := rfl

/-- Every effect is made of updates that write a register, the pc, the store, the run state or a
byte channel. -/
theorem Effect.alloc_eq {s t : State} {i : Instr} (h : Effect s i t) : t.alloc = s.alloc := by
  cases h <;> simp only [State.setReg_alloc, State.setPc_alloc, State.setMem_alloc,
    State.stop_alloc, State.send_alloc, State.takeInput_alloc]

theorem exec_keeps_alloc {s t : State} {i : Instr} (h : exec i s = .next t) :
    t.alloc = s.alloc := by
  obtain he | ⟨c, -, rfl⟩ := exec_cases h
  · exact he.alloc_eq
  · exact s.handlerFault_alloc c

theorem step_keeps_alloc {s t : State} (h : step s = .next t) : t.alloc = s.alloc := by
  obtain ⟨-, ⟨-, rfl⟩ | ⟨w, -, ⟨op, -, rfl⟩ | ⟨i, -, he⟩⟩⟩ := step_cases h
  · exact s.fetchFault_alloc .fetchOutOfBounds
  · exact s.invalidFault_alloc w
  · exact (exec_keeps_alloc he).trans s.advance_alloc

/-- Settles O54: the sources' items and the loaded state by the equations of the definitions, the
predicate's constancy by the cases of a step. -/
theorem hostParametersAreCarried : Obligations.HostParametersAreCarried := by
  refine ⟨fun _ => ⟨rfl, rfl⟩, fun _ _ => ⟨rfl, rfl⟩, ⟨rfl, rfl⟩, fun s size => ?_,
    fun words input alloc s h => ?_, fun s t => step_keeps_alloc⟩
  · exact ⟨State.allocOk_platform size, fun _ => State.allocOk_fixed size⟩
  · obtain ⟨-, rfl⟩ := load_eq_ok_iff.mp h
    exact ⟨State.boot_input words input alloc, State.boot_alloc words input alloc⟩

end Sys2Proof.Machine
end

section
/-! Proofs: the bit slices of a word as the decoder's fields, and what a step can do, with every
fault written as one update of the state (spec/10_state.md, spec/40_step_dispatch.md R110). -/

namespace Sys2Proof.Machine

/-! The fields of a decoded word -/

/-- The slices of the statements are the fields of the codec (spec/30_encoding.md R80). -/
theorem bitsAt_eq_fieldOf (w : Word) (hi lo : Nat) :
    bitsAt w hi lo = fieldOf w (hi + 1 - lo) lo := (fieldOf_eq ..).symm

theorem bitsAt_opcode (w : Word) : bitsAt w 31 28 = opcodeOf w := bitsAt_eq_fieldOf ..

theorem bitsAt_fieldA (w : Word) : bitsAt w 8 6 = (fieldA w).val := (regField_val w 6).symm
theorem bitsAt_fieldB (w : Word) : bitsAt w 5 3 = (fieldB w).val := (regField_val w 3).symm
theorem bitsAt_fieldC (w : Word) : bitsAt w 2 0 = (fieldC w).val := (regField_val w 0).symm
theorem bitsAt_fieldR (w : Word) : bitsAt w 27 25 = (fieldR w).val :=
  (regField_val w 25).symm

/-- The C slice names one register, so a statement's register with that number is the field. -/
theorem eq_fieldC {w : Word} {c : Reg} (h : bitsAt w 2 0 = c.val) : c = fieldC w :=
  Fin.ext (h.symm.trans (bitsAt_fieldC w))

/-- The opcode slice of a word is the opcode of the instruction it decodes to. -/
theorem bitsAt_of_decode {w : Word} {i : Instr} (h : decode w = .instr i) :
    bitsAt w 31 28 = i.opcode := (bitsAt_opcode w).trans (opcode_of_decode h)

/-- The instruction of the kind of `i` with its operands read from the fields of `w`
(spec/30_encoding.md R87, R88). -/
def Instr.withFieldsOf (w : Word) (i : Instr) : Instr :=
  match i with
  | .cmov _ _ _ => .cmov (fieldA w) (fieldB w) (fieldC w)
  | .sload _ _ _ => .sload (fieldA w) (fieldB w) (fieldC w)
  | .sstore _ _ _ => .sstore (fieldA w) (fieldB w) (fieldC w)
  | .add _ _ _ => .add (fieldA w) (fieldB w) (fieldC w)
  | .mul _ _ _ => .mul (fieldA w) (fieldB w) (fieldC w)
  | .div _ _ _ => .div (fieldA w) (fieldB w) (fieldC w)
  | .nand _ _ _ => .nand (fieldA w) (fieldB w) (fieldC w)
  | .halt => .halt
  | .map _ _ => .map (fieldB w) (fieldC w)
  | .unmap _ => .unmap (fieldC w)
  | .out _ => .out (fieldC w)
  | .inp _ => .inp (fieldC w)
  | .loadp _ _ => .loadp (fieldB w) (fieldC w)
  | .lv _ _ => .lv (fieldR w) (fieldImm w)

/-- Every operand of a decoded instruction is the field of the word that the formats give it. -/
theorem withFieldsOf_of_decode {w : Word} {i : Instr} (h : decode w = .instr i) :
    Instr.withFieldsOf w i = i := by
  unfold decode at h
  split at h <;> cases h <;> rfl

/-! What a step can do, faults included -/

/-- The causes that a fetched word can fault with: those of its handler, or the one of an opcode
that has none (spec/60_exceptions.md R200). -/
def wordCauses (w : Word) : List Cause :=
  match decode w with
  | .instr i => handlerCauses i
  | .invalid _ => [.invalidOpcode]

theorem wordCauses_of_instr {w : Word} {i : Instr} (h : decode w = .instr i) :
    wordCauses w = handlerCauses i := by simp only [wordCauses, h]

theorem wordCauses_of_invalid {w : Word} {op : Nat} (h : decode w = .invalid op) :
    wordCauses w = [.invalidOpcode] := by simp only [wordCauses, h]

/-- A fetched word never faults with a fetch fault or with one of the two codec causes, which no
run raises (spec/60_exceptions.md R215). -/
theorem ne_of_mem_wordCauses {w : Word} : ∀ c ∈ wordCauses w,
    c ≠ .fetchOutOfBounds ∧ c ≠ .encodingOverflow ∧ c ≠ .codecContract := by
  cases hd : decode w with
  | invalid op => simp [wordCauses_of_invalid hd]
  | instr i =>
    rw [wordCauses_of_instr hd]
    cases i <;> simp [handlerCauses]

/-- Seen from the state that fetched the word, a handler's fault is raised at the fetched address
with the fetched word (spec/60_exceptions.md R201). -/
theorem State.handlerFault_advance {s : State} {w : Word} (h : s.mem.fetch s.pc = .ok w)
    (c : Cause) : s.advance.handlerFault c = s.advance.raise c s.pc (some w) := by
  rw [State.handlerFault, State.ipc_advance, State.currentWord_advance s h]

/-- All that a step can do, in three cases: the fault of a fetch; a fault of the fetched word, on
the state with the advanced pc; or the effect of the decoded instruction on that state. -/
theorem step_effect_or_fault {s t : State} (h : step s = .next t) : s.run = .running ∧
    ((s.mem.fetch s.pc = .error .fetchOutOfBounds ∧ t = s.raise .fetchOutOfBounds s.pc none) ∨
     ∃ w, Fetches s w ∧
      ((∃ c ∈ wordCauses w, t = s.advance.raise c s.pc (some w)) ∨
       ∃ i, decode w = .instr i ∧ Effect s.advance i t)) := by
  obtain ⟨hr, ⟨hf, ht⟩ | ⟨w, hf, ⟨op, hd, ht⟩ | ⟨i, hd, he⟩⟩⟩ := step_cases h
  · exact ⟨hr, .inl ⟨hf, ht⟩⟩
  · exact ⟨hr, .inr ⟨w, ⟨hr, hf⟩, .inl ⟨_, by simp [wordCauses_of_invalid hd], ht⟩⟩⟩
  · refine ⟨hr, .inr ⟨w, ⟨hr, hf⟩, ?_⟩⟩
    obtain hE | ⟨c, hc, ht⟩ := exec_cases he
    · exact .inr ⟨i, hd, hE⟩
    · exact .inl ⟨c, wordCauses_of_instr hd ▸ hc, ht.trans (State.handlerFault_advance hf c)⟩

/-- The word a step fetches is the only one. -/
theorem Fetches.unique {s : State} {w v : Word} (hw : Fetches s w) (hv : Fetches s v) : v = w :=
  Except.ok.inj (hv.2.symm.trans hw.2)

/-- `step_effect_or_fault` for a step whose fetched word is known. -/
theorem Fetches.effect_or_fault {s t : State} {w : Word} (hw : Fetches s w)
    (h : step s = .next t) : (∃ c ∈ wordCauses w, t = s.advance.raise c s.pc (some w)) ∨
      ∃ i, decode w = .instr i ∧ Effect s.advance i t := by
  obtain ⟨-, ⟨hf, -⟩ | ⟨v, hv, hcases⟩⟩ := step_effect_or_fault h
  · cases hf.symm.trans hw.2
  · exact hw.unique hv ▸ hcases

/-! What an effect changes -/

theorem exists_loadp_of_opcode {i : Instr} (h : i.opcode = 12) : ∃ b c, i = .loadp b c := by
  cases i with
  | loadp b c => exact ⟨b, c, rfl⟩
  | _ => cases h

/-- LOADP sets the pc to its operand and leaves the run state (spec/43_control_io.md R163). -/
theorem Effect.loadp_pc_run {s t : State} {b c : Reg} (h : Effect s (.loadp b c) t) :
    t.pc = s.reg c ∧ t.run = s.run := by
  cases h <;> exact ⟨rfl, rfl⟩

/-- Every other instruction leaves the pc as the fetch advanced it (spec/10_state.md R15). -/
theorem Effect.pc_eq {s t : State} {i : Instr} (h : Effect s i t) (hi : i.opcode ≠ 12) :
    t.pc = s.pc := by
  cases h with
  | jump b c _ => exact absurd rfl hi
  | loadp b c m _ _ => exact absurd rfl hi
  | _ => rfl

/-- An effect stops the run or leaves the run state: it is never a fault. -/
theorem Effect.run_eq {s t : State} {i : Instr} (h : Effect s i t) :
    t.run = .halted ∨ t.run = s.run := by
  cases h with
  | halt => exact .inl rfl
  | _ => exact .inr rfl

theorem Effect.run_ne_faulted {s t : State} {i : Instr} (h : Effect s i t)
    (hs : s.run = .running) : t.run ≠ .faulted := by
  obtain e | e := h.run_eq <;> simp [e, hs]

theorem Effect.fault_eq {s t : State} {i : Instr} (h : Effect s i t) : t.fault = s.fault := by
  cases h <;> rfl

/-- Only OUT sends, and then one byte (spec/10_state.md R33). -/
theorem Effect.outq_eq {s t : State} {i : Instr} (h : Effect s i t) :
    t.outq = s.outq ∨ i.opcode = 10 ∧ ∃ b, t.outq = s.outq ++ [b] := by
  cases h with
  | out c b _ => exact .inr ⟨rfl, b, rfl⟩
  | _ => exact .inl rfl

/-- Only IN takes an item, and then one (spec/10_state.md R34). -/
theorem Effect.input_eq {s t : State} {i : Instr} (h : Effect s i t) :
    t.input = s.input ∨ i.opcode = 11 ∧ t.input = s.input.taken := by
  cases h with
  | inp c => exact .inr ⟨rfl, rfl⟩
  | _ => exact .inl rfl

/-- The register an instruction may write, with CMOV's condition (spec/10_state.md R11). -/
def Instr.Writes (s : State) (r : Reg) (i : Instr) : Prop :=
  match i with
  | .cmov a _ c => r = a ∧ s.reg c ≠ 0#32
  | .sload a _ _ => r = a
  | .sstore _ _ _ => False
  | .add a _ _ => r = a
  | .mul a _ _ => r = a
  | .div a _ _ => r = a
  | .nand a _ _ => r = a
  | .halt => False
  | .map b _ => r = b
  | .unmap _ => False
  | .out _ => False
  | .inp c => r = c
  | .loadp _ _ => False
  | .lv a _ => r = a

/-- The register that a write to `d` changes is `d`. -/
theorem State.eq_of_setReg_ne {s : State} {r d : Reg} {v : Word}
    (h : (s.setReg d v).reg r ≠ s.reg r) : r = d :=
  not_imp_comm.1 (s.setReg_other v) h

/-- An effect changes no register but the one its instruction writes. -/
theorem Effect.writes_of_reg_ne {s t : State} {i : Instr} {r : Reg} (h : Effect s i t)
    (hr : t.reg r ≠ s.reg r) : Instr.Writes s r i := by
  cases h with
  | cmov a b c hc => exact ⟨State.eq_of_setReg_ne hr, hc⟩
  | sload | add | mul | div | nand | lv => exact State.eq_of_setReg_ne hr
  | map b c id m _ => exact State.eq_of_setReg_ne (s := s.setMem m) hr
  | inp c => exact State.eq_of_setReg_ne (s := s.takeInput) hr
  | _ => exact absurd rfl hr

end Sys2Proof.Machine
end

section
/-! Proofs: the statements about the state and its ports (spec/10_state.md). -/

namespace Sys2Proof.Machine

/-- Settles O36: the pc of a fault of the fetched word, and of an effect, of LOADP and of the
others. -/
theorem pcAdvancesUnlessLoadp : Obligations.PcAdvancesUnlessLoadp := by
  intro s t w c hw hc h
  obtain ⟨e, -, rfl⟩ | ⟨i, hd, he⟩ := hw.effect_or_fault h
  · have hrun : ¬ (s.advance.raise e s.pc (some w)).run = .running := by simp
    exact (if_neg fun hx => hrun hx.2).symm
  · rw [bitsAt_of_decode hd]
    by_cases hi : i.opcode = 12
    · obtain ⟨b, c', rfl⟩ := exists_loadp_of_opcode hi
      rw [← withFieldsOf_of_decode hd] at he
      obtain ⟨hpc, hrun⟩ := Effect.loadp_pc_run (b := fieldB w) (c := fieldC w) he
      rw [if_pos ⟨rfl, hrun.trans hw.1⟩, hpc, eq_fieldC hc, State.advance_reg]
    · rw [if_neg fun hx => hi hx.1, he.pc_eq hi, State.advance_pc]

/-- A step that leaves Faulted leaves a record. -/
theorem step_faulted_record {s t : State} (h : step s = .next t) (ht : t.run = .faulted) :
    ∃ r, t.fault = some r := by
  obtain ⟨hr, ⟨-, rfl⟩ | ⟨w, -, ⟨c, -, rfl⟩ | ⟨i, -, he⟩⟩⟩ := step_effect_or_fault h
  · exact ⟨_, rfl⟩
  · exact ⟨_, rfl⟩
  · exact absurd ht (he.run_ne_faulted hr)

/-- Settles O40: the answer is read off the run state, and a faulted state has its record. -/
theorem stepAnswersItsRunState : Obligations.StepAnswersItsRunState := by
  intro s t h
  obtain ⟨hr, -⟩ := step_cases h
  refine ⟨hr, fun ht => by simp only [State.answer, ht], fun ht => by simp only [State.answer, ht],
    fun ht => ?_⟩
  obtain ⟨r, hfault⟩ := step_faulted_record h ht
  exact ⟨r, hfault, by simp only [State.answer, ht, hfault, Option.map_some]⟩

/-- Settles O43: no fault writes a register, an effect writes the one of its instruction, and the
decoder reads that operand from the field of the table. -/
theorem registersWrittenFollowTheTable : Obligations.RegistersWrittenFollowTheTable := by
  intro s t r h hne
  obtain ⟨-, ⟨-, rfl⟩ | ⟨w, hw, ⟨c, -, rfl⟩ | ⟨i, hd, he⟩⟩⟩ := step_effect_or_fault h
  · exact absurd rfl hne
  · exact absurd rfl hne
  · refine ⟨w, hw, ?_⟩
    have hwrites := he.writes_of_reg_ne hne
    rw [bitsAt_of_decode hd]
    rw [← withFieldsOf_of_decode hd] at hwrites ⊢
    cases i with
    | cmov a b c =>
      obtain ⟨rfl, hc⟩ := hwrites
      refine .inl ⟨rfl, bitsAt_fieldA w, fun c hbits => ?_⟩
      rwa [eq_fieldC hbits]
    | sload | add | mul | div | nand =>
      exact .inr (.inl ⟨by simp [Instr.withFieldsOf, Instr.opcode], hwrites ▸ bitsAt_fieldA w⟩)
    | map => exact .inr (.inr (.inl ⟨rfl, hwrites ▸ bitsAt_fieldB w⟩))
    | inp => exact .inr (.inr (.inr (.inl ⟨rfl, hwrites ▸ bitsAt_fieldC w⟩)))
    | lv => exact .inr (.inr (.inr (.inr ⟨rfl, hwrites ▸ bitsAt_fieldR w⟩)))
    | sstore | halt | unmap | out | loadp => exact hwrites.elim

/-- Settles O45: no fault touches a channel, and an effect does so only for OUT and IN. -/
theorem channelsUsedOnlyByOutAndIn : Obligations.ChannelsUsedOnlyByOutAndIn := by
  refine ⟨rfl, fun s t h => ⟨step_keeps_alloc h, ?_⟩⟩
  obtain ⟨-, ⟨-, rfl⟩ | ⟨w, hw, ⟨c, -, rfl⟩ | ⟨i, hd, he⟩⟩⟩ := step_effect_or_fault h
  · exact ⟨.inl rfl, .inl rfl⟩
  · exact ⟨.inl rfl, .inl rfl⟩
  · have hop := bitsAt_of_decode hd
    exact ⟨he.outq_eq.imp_right fun ⟨hi, b, hb⟩ => ⟨w, b, hw, hop.trans hi, hb⟩,
      he.input_eq.imp_right fun ⟨hi, ht⟩ => ⟨w, hw, hop.trans hi, ht⟩⟩

/-- A fault that is raised with a word, or without one for the fetch, leaves a consistent record. -/
theorem State.recordConsistent_raise (s : State) {c : Cause} (p : Word) {w : Option Word}
    (hw : w = none ↔ c = .fetchOutOfBounds) (ho : c ≠ .encodingOverflow)
    (hc : c ≠ .codecContract) : (s.raise c p w).RecordConsistent := by
  refine ⟨by simp, fun r hr => ?_⟩
  cases hr
  exact ⟨hw, ho, hc⟩

/-- A state with no record that has not faulted is consistent. -/
theorem State.recordConsistent_of_none {s : State} (hf : s.fault = none)
    (hr : s.run ≠ .faulted) : s.RecordConsistent :=
  ⟨iff_of_true hf hr, fun _ h => nomatch hf.symm.trans h⟩

/-- Settles O50: a step either raises a fault or keeps the empty record of the running state. -/
theorem stepKeepsFaultRecordConsistent : Obligations.StepKeepsFaultRecordConsistent := by
  refine ⟨rfl, State.recordConsistent_of_none rfl (by decide), fun s t ⟨hs, _⟩ h => ?_⟩
  obtain ⟨hr, ⟨-, rfl⟩ | ⟨w, -, ⟨c, hc, rfl⟩ | ⟨i, -, he⟩⟩⟩ := step_effect_or_fault h
  · exact s.recordConsistent_raise s.pc (by simp) (by decide) (by decide)
  · obtain ⟨hfetch, hover, hcodec⟩ := ne_of_mem_wordCauses c hc
    exact s.advance.recordConsistent_raise s.pc (by simp [hfetch]) hover hcodec
  · have hnone : s.fault = none := hs.2 (by simp [hr])
    exact State.recordConsistent_of_none (he.fault_eq.trans hnone) (he.run_ne_faulted hr)

/-- In a canonical store a fetch succeeds below the top of the address space only, as segment 0 is
at most 2^32 - 1 words long (spec/20_memory.md R41). -/
theorem Memory.lt_of_fetch {m : Memory} {off w : Word} (hm : m.wf = true)
    (h : m.fetch off = .ok w) : off.toNat < 2 ^ 32 - 1 := by
  obtain ⟨g, hg, hoff, -⟩ | e := m.fetch_cases off
  · obtain ⟨-, -, hlen⟩ := Segment.wf_iff.1 (Memory.wf_segment hm hg)
    omega
  · cases e.symm.trans h

/-- Settles O48: a fetch that succeeds is below the top of the address space. -/
theorem pcIncrementNeverWraps : Obligations.PcIncrementNeverWraps := by
  intro s hinv
  refine ⟨?_, fun w ⟨_, hf⟩ => ?_⟩
  · obtain ⟨g, -, -, e⟩ | e := s.mem.fetch_cases 0xFFFFFFFF#32
    · exact absurd (Memory.lt_of_fetch hinv.canonical e) (by decide)
    · exact e
  · have hlt := Memory.lt_of_fetch hinv.canonical hf
    rw [BitVec.toNat_add, BitVec.toNat_ofNat]
    omega

/-- Settles O57: the two cases of the status read. -/
theorem statusReadOnlyAfterTheRun : Obligations.StatusReadOnlyAfterTheRun :=
  fun _ => ⟨fun h => if_neg h, fun h => if_pos h⟩

end Sys2Proof.Machine
end

section
/-! Proofs: the rules of the segment-store port (spec/20_memory.md R45 to R52): what an operation
that succeeds leaves, read by segments, words, free pool and next fresh identifier. -/

namespace Sys2Proof.Machine

/-! Placing a segment -/

theorem Memory.segment_setSegment_same (m : Memory) (id : Word) (g : Segment) :
    (m.setSegment id g).segment id = some g := by
  rw [Memory.segment_setSegment, if_pos rfl]

theorem Memory.segment_setSegment_of_ne (m : Memory) {id id' : Word} (g : Segment)
    (h : id' ≠ id) : (m.setSegment id g).segment id' = m.segment id' := by
  rw [Memory.segment_setSegment, if_neg h.symm]

/-- A segment placed where one was mapped maps and unmaps nothing. -/
theorem Memory.segment_setSegment_eq_none_iff {m : Memory} {id : Word} (g : Segment)
    (h : m.segment id ≠ none) (id' : Word) :
    (m.setSegment id g).segment id' = none ↔ m.segment id' = none := by
  by_cases e : id' = id
  · subst e
    simp [Memory.segment_setSegment_same, h]
  · rw [Memory.segment_setSegment_of_ne m g e]

/-- The length of a segment that two stores share. -/
theorem Memory.len_eq_of_segment_eq {m m' : Memory} {id : Word} {g g' : Segment}
    (h : m'.segment id = m.segment id) (hg : m.segment id = some g)
    (hg' : m'.segment id = some g') : g'.len = g.len := by
  cases hg'.symm.trans (h.trans hg)
  rfl

/-! `Fetch` (R45) -/

theorem Memory.fetch_of_mapped {m : Memory} {g : Segment} (h : m.segment 0#32 = some g)
    (off : Word) : m.fetch off =
      if off.toNat < g.len then .ok (g.word off.toNat) else .error .fetchOutOfBounds := by
  simp only [Memory.fetch, h]

/-- A word that `SegRead` answers from segment 0 is what `Fetch` answers. -/
theorem Memory.fetch_of_segRead {m : Memory} {off w : Word} (h : m.segRead 0#32 off = .ok w) :
    m.fetch off = .ok w := by
  obtain ⟨g, hg, hoff, e⟩ | ⟨-, e⟩ | ⟨g, -, -, e⟩ := m.segRead_cases 0#32 off
  · rw [Memory.fetch_of_mapped hg, if_pos hoff, ← e, h]
  · cases e.symm.trans h
  · cases e.symm.trans h

/-! `SegWrite` (R46) -/

theorem Memory.segWrite_of_mapped {m : Memory} {id off : Word} {g : Segment} (v : Word)
    (h : m.segment id = some g) : m.segWrite id off v =
      if off.toNat < g.len then .ok (m.setSegment id (g.setWord off.toNat v))
      else .error .segmentOutOfBounds := by
  simp only [Memory.segWrite, h]

theorem Memory.segWrite_of_unmapped {m : Memory} {id : Word} (off v : Word)
    (h : m.segment id = none) : m.segWrite id off v = .error .unmappedSegment := by
  simp only [Memory.segWrite, h]

section
variable {m m' : Memory} {id off v : Word}

/-- A write that succeeds replaces one word of a mapped segment. -/
theorem Memory.segWrite_eq_ok (e : m.segWrite id off v = .ok m') :
    ∃ g, m.segment id = some g ∧ off.toNat < g.len ∧
      m' = m.setSegment id (g.setWord off.toNat v) := by
  obtain ⟨g, hg, hoff, e'⟩ | ⟨-, e'⟩ | ⟨g, -, -, e'⟩ := m.segWrite_cases id off v
  · exact ⟨g, hg, hoff, Except.ok.inj (e.symm.trans e')⟩
  · cases e'.symm.trans e
  · cases e'.symm.trans e

theorem Memory.segWrite_free (e : m.segWrite id off v = .ok m') : m'.free = m.free := by
  obtain ⟨g, -, -, rfl⟩ := Memory.segWrite_eq_ok e
  rfl

theorem Memory.segWrite_nextFresh (e : m.segWrite id off v = .ok m') :
    m'.nextFresh = m.nextFresh := by
  obtain ⟨g, -, -, rfl⟩ := Memory.segWrite_eq_ok e
  rfl

theorem Memory.segWrite_segment_of_ne {id' : Word} (e : m.segWrite id off v = .ok m')
    (h : id' ≠ id) : m'.segment id' = m.segment id' := by
  obtain ⟨g, -, -, rfl⟩ := Memory.segWrite_eq_ok e
  exact m.segment_setSegment_of_ne _ h

theorem Memory.segWrite_segRead_same (e : m.segWrite id off v = .ok m') :
    m'.segRead id off = .ok v := by
  obtain ⟨g, -, hoff, rfl⟩ := Memory.segWrite_eq_ok e
  rw [Memory.segRead_of_mapped (m.segment_setSegment_same id _), Segment.setWord_len,
    if_pos hoff, Segment.word_setWord, if_pos rfl]

/-- A write leaves every other word, of its own segment too. -/
theorem Memory.segWrite_segRead_of_ne {id' off' : Word} (e : m.segWrite id off v = .ok m')
    (h : (id', off') ≠ (id, off)) : m'.segRead id' off' = m.segRead id' off' := by
  by_cases hid : id' = id
  · subst hid
    obtain ⟨g, hg, -, rfl⟩ := Memory.segWrite_eq_ok e
    have hoff : off.toNat ≠ off'.toNat := fun eq => h (by rw [BitVec.eq_of_toNat_eq eq])
    rw [Memory.segRead_of_mapped (m.segment_setSegment_same id' _), Memory.segRead_of_mapped hg,
      Segment.setWord_len, Segment.word_setWord, if_neg hoff]
  · exact Memory.segRead_congr (Memory.segWrite_segment_of_ne e hid) off'

/-- A write changes no length. -/
theorem Memory.segWrite_len {id' : Word} {g g' : Segment} (e : m.segWrite id off v = .ok m')
    (hg : m.segment id' = some g) (hg' : m'.segment id' = some g') : g'.len = g.len := by
  by_cases hid : id' = id
  · subst hid
    obtain ⟨g₀, hg₀, -, rfl⟩ := Memory.segWrite_eq_ok e
    cases hg₀.symm.trans hg
    cases (m.segment_setSegment_same id' _).symm.trans hg'
    rfl
  · exact Memory.len_eq_of_segment_eq (Memory.segWrite_segment_of_ne e hid) hg hg'

end

/-! `Allocate` (R47) -/

/-- An allocation that succeeds gives a segment of zeros to one identifier, which leaves the head
of the free pool or is the next fresh one. -/
theorem Memory.allocate_eq_ok {m m' : Memory} {ok : Bool} {size id : Word}
    (e : m.allocate ok size = .ok (id, m')) :
    m'.segment id = some (Segment.zeros size.toNat) ∧
    (∀ id', id' ≠ id → m'.segment id' = m.segment id') ∧
    ((m.free = id :: m'.free ∧ m'.nextFresh = m.nextFresh) ∨
     (m.free = [] ∧ m'.free = [] ∧ m.nextFresh < 2 ^ 32 ∧ id.toNat = m.nextFresh ∧
        m'.nextFresh = m.nextFresh + 1)) := by
  obtain ⟨i, rest, hfree, -, e'⟩ | ⟨i, hfree, hlt, -, hi, e'⟩ | ⟨-, e'⟩ :=
    m.allocate_cases ok size
  · cases e'.symm.trans e
    exact ⟨Memory.segment_setSegment_same { m with free := rest } _ _,
      fun _ => Memory.segment_setSegment_of_ne { m with free := rest } _, .inl ⟨hfree, rfl⟩⟩
  · cases e'.symm.trans e
    exact ⟨Memory.segment_setSegment_same { m with nextFresh := m.nextFresh + 1 } _ _,
      fun _ => Memory.segment_setSegment_of_ne { m with nextFresh := m.nextFresh + 1 } _,
      .inr ⟨hfree, hfree, hlt, hi, rfl⟩⟩
  · cases e'.symm.trans e

/-- Where storage suffices, an allocation succeeds as long as an identifier is left. -/
theorem Memory.exists_allocate_eq_ok {m : Memory} (size : Word)
    (h : m.free ≠ [] ∨ m.nextFresh < 2 ^ 32) : ∃ id m', m.allocate true size = .ok (id, m') := by
  obtain ⟨i, rest, -, -, e⟩ | ⟨i, -, -, -, -, e⟩ | ⟨⟨hfree, hnext⟩ | hok, -⟩ :=
    m.allocate_cases true size
  · exact ⟨_, _, e⟩
  · exact ⟨_, _, e⟩
  · exact h.elim (absurd hfree) (fun hlt => absurd hlt (Nat.not_lt.2 hnext))
  · cases hok

/-- Where storage suffices, an allocation takes the head of the free pool. -/
theorem Memory.allocate_of_free {m : Memory} {id : Word} {rest : List Word} (size : Word)
    (h : m.free = id :: rest) : ∃ m', m.allocate true size = .ok (id, m') ∧
      m'.segment id = some (Segment.zeros size.toNat) ∧
      (∀ id', id' ≠ id → m'.segment id' = m.segment id') ∧
      m'.free = rest ∧ m'.nextFresh = m.nextFresh := by
  obtain ⟨i, m', e⟩ := Memory.exists_allocate_eq_ok size (.inl (by simp [h] : m.free ≠ []))
  obtain ⟨hzeros, hother, ⟨hfree, hnext⟩ | ⟨hfree, -⟩⟩ := Memory.allocate_eq_ok e
  · obtain ⟨rfl, rfl⟩ := List.cons.inj (hfree.symm.trans h)
    exact ⟨m', e, hzeros, hother, rfl, hnext⟩
  · cases hfree.symm.trans h

theorem Memory.allocate_exhausted {m : Memory} (ok : Bool) (size : Word) (hf : m.free = [])
    (hn : 2 ^ 32 ≤ m.nextFresh) : m.allocate ok size = .error .allocationFailure := by
  obtain ⟨i, rest, hfree, -⟩ | ⟨i, -, hlt, -⟩ | ⟨-, e⟩ := m.allocate_cases ok size
  · cases hf.symm.trans hfree
  · omega
  · exact e

theorem Memory.allocate_refused (m : Memory) (size : Word) :
    m.allocate false size = .error .allocationFailure := by
  obtain ⟨i, rest, -, hok, -⟩ | ⟨i, -, -, hok, -⟩ | ⟨-, e⟩ := m.allocate_cases false size
  · cases hok
  · cases hok
  · exact e

/-! `Release` (R49, R50) -/

/-- A release that succeeds unmaps a mapped identifier other than 0 and pushes it. -/
theorem Memory.release_eq_ok {m m' : Memory} {id : Word} (e : m.release id = .ok m') :
    id ≠ 0#32 ∧ m.segment id ≠ none ∧
      m'.segment id = none ∧ (∀ id', id' ≠ id → m'.segment id' = m.segment id') ∧
      m'.free = id :: m.free ∧ m'.nextFresh = m.nextFresh := by
  obtain ⟨g, h0, hg, e'⟩ | ⟨-, e'⟩ | ⟨-, -, e'⟩ := m.release_cases id
  · cases e'.symm.trans e
    exact ⟨h0, by simp [hg], (m.segment_erase id id _).trans (if_pos rfl),
      fun id' hne => (m.segment_erase id id' _).trans (if_neg hne.symm), rfl, rfl⟩
  · cases e'.symm.trans e
  · cases e'.symm.trans e

theorem Memory.exists_release_eq_ok {m : Memory} {id : Word} (h0 : id ≠ 0#32)
    (h : m.segment id ≠ none) : ∃ m', m.release id = .ok m' := by
  obtain ⟨g, -, -, e⟩ | ⟨h0', -⟩ | ⟨-, hn, -⟩ := m.release_cases id
  · exact ⟨_, e⟩
  · exact absurd h0' h0
  · exact absurd hn h

theorem Memory.release_zero (m : Memory) :
    m.release 0#32 = .error .releaseProgramSegment := if_pos rfl

theorem Memory.release_of_unmapped {m : Memory} {id : Word} (h0 : id ≠ 0#32)
    (h : m.segment id = none) : m.release id = .error .unmappedSegment := by
  simp only [Memory.release, h0, h, if_false]

/-! `ReplaceProgram` (R51) -/

/-- A replacement from another segment that succeeds places that segment at 0. -/
theorem Memory.replaceProgram_eq_ok {m m' : Memory} {id : Word} (h0 : id ≠ 0#32)
    (e : m.replaceProgram id = .ok m') : ∃ g, m.segment id = some g ∧ m' = m.setSegment 0#32 g := by
  obtain ⟨g, hg, -, e'⟩ | ⟨g, -, h0', -⟩ | ⟨-, e'⟩ := m.replaceProgram_cases id
  · exact ⟨g, hg, Except.ok.inj (e.symm.trans e')⟩
  · exact absurd h0' h0
  · cases e'.symm.trans e

theorem Memory.replaceProgram_of_mapped {m : Memory} {id : Word} {g : Segment} (h0 : id ≠ 0#32)
    (h : m.segment id = some g) : m.replaceProgram id = .ok (m.setSegment 0#32 g) := by
  simp only [Memory.replaceProgram, h]
  rw [if_neg h0]

theorem Memory.replaceProgram_zero {m : Memory} (h : m.segment 0#32 ≠ none) :
    m.replaceProgram 0#32 = .ok m := by
  obtain ⟨g, -, h0, -⟩ | ⟨g, -, -, e⟩ | ⟨hn, -⟩ := m.replaceProgram_cases 0#32
  · exact absurd rfl h0
  · exact e
  · exact absurd hn h

theorem Memory.replaceProgram_of_unmapped {m : Memory} {id : Word} (h : m.segment id = none) :
    m.replaceProgram id = .error .unmappedSegment := by
  simp only [Memory.replaceProgram, h]

/-! `create` (R52) -/

theorem Memory.create_segment_zero (ws : List Word) :
    (Memory.create ws).segment 0#32 = some (Segment.ofWords ws) := rfl

theorem Memory.create_segment_of_ne (ws : List Word) {id : Word} (h : id ≠ 0#32) :
    (Memory.create ws).segment id = none :=
  if_neg fun e => h (BitVec.eq_of_toNat_eq e.symm)

end Sys2Proof.Machine
end

section
/-! Proofs: the statements about the segment store itself (spec/20_memory.md R45 to R52). -/

namespace Sys2Proof.Machine

/-- Settles O26: the rules of `SegRead` and `Fetch`. -/
theorem segReadTranslatesAndChecks : Obligations.SegReadTranslatesAndChecks := by
  refine fun m id off => ⟨Memory.segRead_of_unmapped, fun g hg hoff => ?_, fun g hg hoff => ?_,
    fun g hg => Memory.fetch_of_mapped hg off⟩
  · rw [Memory.segRead_of_mapped hg, if_neg (Nat.not_lt.2 hoff)]
  · rw [Memory.segRead_of_mapped hg, if_pos hoff]

/-- Settles O27: the rules of `SegWrite`. -/
theorem segWriteIsReadBackAndChangesNothingElse :
    Obligations.SegWriteIsReadBackAndChangesNothingElse := by
  refine fun m id off v => ⟨fun g hg hoff => ?_, Memory.segWrite_of_unmapped off v,
    fun g hg hoff => ?_⟩
  · have e := (Memory.segWrite_of_mapped v hg).trans (if_pos hoff)
    exact ⟨_, e, Memory.segWrite_segRead_same e, fun _ _ => Memory.segWrite_segRead_of_ne e,
      fun _ => Memory.segWrite_segment_of_ne e, rfl, rfl⟩
  · rw [Memory.segWrite_of_mapped v hg, if_neg (Nat.not_lt.2 hoff)]

/-- In a store with the invariants, the identifier of an allocation was not mapped
(spec/20_memory.md R43, I3 and I4). -/
theorem Memory.Inv.segment_of_allocate {m m' : Memory} {ok : Bool} {size id : Word} (h : m.Inv)
    (e : m.allocate ok size = .ok (id, m')) : m.segment id = none := by
  obtain ⟨-, -, ⟨hfree, -⟩ | ⟨-, -, -, hid, -⟩⟩ := Memory.allocate_eq_ok e
  · exact h.freeUnmapped id (by simp [hfree])
  · exact h.freshUnmapped id hid.ge

/-- A segment of zeros reads as 0 below its length. -/
theorem Memory.segRead_zeros {m : Memory} {id size off : Word}
    (h : m.segment id = some (Segment.zeros size.toNat)) (hoff : off.toNat < size.toNat) :
    m.segRead id off = .ok 0#32 := by
  rw [Memory.segRead_of_mapped h, Segment.zeros_len, if_pos hoff, Segment.zeros_word]

/-- Settles O28: an allocation succeeds while an identifier is left, and its two ways to choose
one. -/
theorem allocateReusesThenMints : Obligations.AllocateReusesThenMints := by
  refine fun m size => ⟨fun id rest hf => ?_, fun hf hn => ?_,
    fun hf hn ok => Memory.allocate_exhausted ok size hf hn, m.allocate_refused size⟩
  · obtain ⟨m', e, hzeros, hother, hfree, hnext⟩ := Memory.allocate_of_free size hf
    exact ⟨m', e, hzeros, fun _ => Memory.segRead_zeros hzeros, hother, hfree, hnext,
      fun hi => hi.segment_of_allocate e⟩
  · obtain ⟨id, m', e⟩ := Memory.exists_allocate_eq_ok size (.inr (by omega : m.nextFresh < 2 ^ 32))
    obtain ⟨hzeros, hother, ⟨hfree, -⟩ | ⟨-, hfree, -, hid, hnext⟩⟩ := Memory.allocate_eq_ok e
    · cases hf.symm.trans hfree
    · exact ⟨id, m', e, hid, hzeros, fun _ => Memory.segRead_zeros hzeros, hother, hfree, hnext,
        fun hi => hi.segment_of_allocate e⟩

/-- Settles O29: the rules of `Release`. -/
theorem releaseUnmapsAndPushes : Obligations.ReleaseUnmapsAndPushes := by
  refine fun m id => ⟨fun g h0 hg => ?_, fun h0 => h0 ▸ m.release_zero, Memory.release_of_unmapped⟩
  obtain ⟨m', e⟩ := Memory.exists_release_eq_ok h0 (by simp [hg] : m.segment id ≠ none)
  obtain ⟨-, -, hsame, hother, hfree, hnext⟩ := Memory.release_eq_ok e
  exact ⟨m', e, hsame, hother, hfree, hnext⟩

/-- Settles O30: segment 0 is the source after the replacement, and a write reaches one
identifier only. -/
theorem replaceProgramCopiesIndependently : Obligations.ReplaceProgramCopiesIndependently := by
  refine fun m id => ⟨Memory.replaceProgram_of_unmapped, fun g hg h0 => ?_, fun g hg h0 => ?_⟩
  · subst h0
    exact Memory.replaceProgram_zero (by simp [hg])
  · have hcopy := m.segment_setSegment_same 0#32 g
    have hsource := (m.segment_setSegment_of_ne g h0).trans hg
    exact ⟨_, Memory.replaceProgram_of_mapped h0 hg, hcopy,
      fun _ => m.segment_setSegment_of_ne g, rfl, rfl, fun off v m'' =>
        ⟨fun e => (Memory.segWrite_segment_of_ne e h0).trans hsource,
         fun e => (Memory.segWrite_segment_of_ne e h0.symm).trans hcopy⟩⟩

/-- Settles O31: segment 0 of the new store is the segment of the list. -/
theorem createHoldsTheInitialWords : Obligations.CreateHoldsTheInitialWords := by
  refine fun ws => ⟨⟨_, Memory.create_segment_zero ws, rfl⟩, fun off w hw => ?_,
    fun _ => Memory.create_segment_of_ne ws, rfl, rfl⟩
  have hlen : off.toNat < (Segment.ofWords ws).len := (List.getElem?_eq_some_iff.1 hw).1
  rw [Memory.segRead_of_mapped (Memory.create_segment_zero ws), if_pos hlen,
    Segment.word_ofWords, List.getD_eq_getElem?_getD, hw, Option.getD_some]

/-! The stack discipline of the free pool -/

/-- Releasing distinct mapped identifiers pushes them, the last one on top, and touches no other
segment. -/
theorem Memory.releaseAll_of_mapped {ids : List Word} {m : Memory} (hnd : ids.Nodup)
    (h : ∀ id ∈ ids, id ≠ 0#32 ∧ m.segment id ≠ none) : ∃ m1, m.releaseAll ids = .ok m1 ∧
      m1.free = ids.reverse ++ m.free ∧ m1.nextFresh = m.nextFresh ∧
      ∀ id, id ∉ ids → m1.segment id = m.segment id := by
  induction ids generalizing m with
  | nil => exact ⟨m, rfl, rfl, rfl, fun _ _ => rfl⟩
  | cons id ids ih =>
    obtain ⟨hid, hnd⟩ := List.nodup_cons.1 hnd
    obtain ⟨⟨h0, hmapped⟩, hrest⟩ := List.forall_mem_cons.1 h
    obtain ⟨m', e⟩ := Memory.exists_release_eq_ok h0 hmapped
    obtain ⟨-, -, -, hother, hfree, hnext⟩ := Memory.release_eq_ok e
    obtain ⟨m1, e1, hfree1, hnext1, hseg1⟩ := ih (m := m') hnd fun id' hmem => by
      rw [hother id' fun eq => hid (eq ▸ hmem)]
      exact hrest id' hmem
    refine ⟨m1, by simp only [Memory.releaseAll, e, e1], by simp [hfree1, hfree],
      hnext1.trans hnext, fun id' hmem => ?_⟩
    exact (hseg1 id' (List.not_mem_of_not_mem_cons hmem)).trans
      (hother id' (List.ne_of_not_mem_cons hmem))

/-- Allocations take the identifiers on top of the free pool in its order, and touch no other
segment. -/
theorem Memory.allocateAll_of_free {ids sizes rest : List Word} {m : Memory}
    (hf : m.free = ids ++ rest) (hl : sizes.length = ids.length) :
    ∃ m2, m.allocateAll sizes = .ok (ids, m2) ∧ m2.free = rest ∧ m2.nextFresh = m.nextFresh ∧
      ∀ id, id ∉ ids → m2.segment id = m.segment id := by
  induction ids generalizing m sizes with
  | nil =>
    obtain rfl := List.length_eq_zero_iff.1 hl
    exact ⟨m, rfl, hf, rfl, fun _ _ => rfl⟩
  | cons id ids ih =>
    obtain ⟨size, sizes, rfl⟩ := List.exists_cons_of_length_eq_add_one hl
    obtain ⟨m', e, -, hother, hfree, hnext⟩ := Memory.allocate_of_free size hf
    obtain ⟨m2, e2, hfree2, hnext2, hseg2⟩ := ih hfree (Nat.succ.inj hl)
    refine ⟨m2, by simp only [Memory.allocateAll, e, e2], hfree2, hnext2.trans hnext,
      fun id' hmem => ?_⟩
    exact (hseg2 id' (List.not_mem_of_not_mem_cons hmem)).trans
      (hother id' (List.ne_of_not_mem_cons hmem))

/-- Settles O32: the releases put the identifiers on top of the free pool in reverse, and the
allocations take them off. -/
theorem releasedIdentifiersComeBackInReverse :
    Obligations.ReleasedIdentifiersComeBackInReverse := by
  intro m ids sizes hnd h hl
  obtain ⟨m1, e1, hfree1, hnext1, hseg1⟩ := Memory.releaseAll_of_mapped hnd h
  obtain ⟨m2, e2, hfree2, hnext2, hseg2⟩ :=
    Memory.allocateAll_of_free (sizes := sizes) hfree1 (by simpa using hl)
  refine ⟨m1, m2, e1, e2, hfree2, hnext2.trans hnext1, fun id hmem => ?_⟩
  exact (hseg2 id (by simpa using hmem)).trans (hseg1 id hmem)

end Sys2Proof.Machine
end

section
/-! Proofs: the invariants of the segment store (spec/20_memory.md R43), kept by every operation of
the port, by every step and along every run. -/

namespace Sys2Proof.Machine

/-! Every operation of the port keeps the invariants -/

/-- I6 is part of the canonical form. -/
theorem Memory.nodup_ids_of_wf {m : Memory} (h : m.wf = true) : (m.seg.map Prod.fst).Nodup :=
  nodup_keys_of_sorted (Memory.wf_iff.1 h).1

/-- A canonical segment may take the place of a mapped one. -/
theorem Memory.Inv.setSegment {m : Memory} {id : Word} {g : Segment} (h : m.Inv)
    (hid : m.segment id ≠ none) (hg : g.wf = true) : (m.setSegment id g).Inv := by
  have hnone := Memory.segment_setSegment_eq_none_iff g hid
  have hwf := Memory.wf_setSegment (id := id) h.canonical hg
  exact {
    canonical := hwf
    programMapped := mt (hnone 0#32).1 h.programMapped
    zeroNotFree := h.zeroNotFree
    freeUnmapped := fun id' hf => (hnone id').2 (h.freeUnmapped id' hf)
    freeNodup := h.freeNodup
    freeMinted := h.freeMinted
    nextPositive := h.nextPositive
    nextBounded := h.nextBounded
    freshUnmapped := fun id' hn => (hnone id').2 (h.freshUnmapped id' hn)
    mintedAccounted := fun id' h1 hn => (h.mintedAccounted id' h1 hn).imp_left (mt (hnone id').1)
    idsDistinct := Memory.nodup_ids_of_wf hwf }

theorem Memory.Inv.segWrite {m m' : Memory} {id off v : Word} (h : m.Inv)
    (e : m.segWrite id off v = .ok m') : m'.Inv := by
  obtain ⟨g, hg, hoff, rfl⟩ := Memory.segWrite_eq_ok e
  exact h.setSegment (by simp [hg]) (Segment.wf_setWord v (Memory.wf_segment h.canonical hg) hoff)

theorem Memory.Inv.replaceProgram {m m' : Memory} {id : Word} (h : m.Inv) (h0 : id ≠ 0#32)
    (e : m.replaceProgram id = .ok m') : m'.Inv := by
  obtain ⟨g, hg, rfl⟩ := Memory.replaceProgram_eq_ok h0 e
  exact h.setSegment h.programMapped (Memory.wf_segment h.canonical hg)

/-- What an allocation leaves mapped: the new identifier, and what was mapped before. -/
theorem Memory.allocate_segment_eq_none_iff {m m' : Memory} {ok : Bool} {size id : Word}
    (e : m.allocate ok size = .ok (id, m')) (id' : Word) :
    m'.segment id' = none ↔ id' ≠ id ∧ m.segment id' = none := by
  obtain ⟨hzeros, hother, -⟩ := Memory.allocate_eq_ok e
  by_cases hid : id' = id
  · simp [hid, hzeros]
  · simp [hid, hother id' hid]

section
variable {m m' : Memory} {id : Word}

/-- Mapping the head of the free pool keeps the invariants. -/
theorem Memory.Inv.of_reuse (h : m.Inv) (hwf : m'.wf = true)
    (hnone : ∀ id', m'.segment id' = none ↔ id' ≠ id ∧ m.segment id' = none)
    (hfree : m.free = id :: m'.free) (hnext : m'.nextFresh = m.nextFresh) : m'.Inv := by
  have hsub : ∀ id' ∈ m'.free, id' ∈ m.free := fun id' hf => by simp [hfree, hf]
  obtain ⟨hhead, htail⟩ := List.nodup_cons.1 (hfree ▸ h.freeNodup)
  have hminted : id.toNat < m.nextFresh := h.freeMinted id (by simp [hfree])
  exact {
    canonical := hwf
    programMapped := fun hn => h.programMapped ((hnone 0#32).1 hn).2
    zeroNotFree := mt (hsub 0#32) h.zeroNotFree
    freeUnmapped := fun id' hf =>
      (hnone id').2 ⟨fun eq => hhead (eq ▸ hf), h.freeUnmapped id' (hsub id' hf)⟩
    freeNodup := htail
    freeMinted := fun id' hf => hnext ▸ h.freeMinted id' (hsub id' hf)
    nextPositive := hnext ▸ h.nextPositive
    nextBounded := hnext ▸ h.nextBounded
    freshUnmapped := fun id' hn =>
      (hnone id').2 ⟨by rintro rfl; omega, h.freshUnmapped id' (hnext ▸ hn)⟩
    mintedAccounted := fun id' h1 hn => by
      refine or_iff_not_imp_right.2 fun hmem hn' => ?_
      obtain ⟨hne, hun⟩ := (hnone id').1 hn'
      exact (h.mintedAccounted id' h1 (hnext ▸ hn)).elim (· hun) (by simp [hfree, hne, hmem])
    idsDistinct := Memory.nodup_ids_of_wf hwf }

/-- Mapping the next fresh identifier keeps the invariants, with no identifier free. -/
theorem Memory.Inv.of_mint (h : m.Inv) (hwf : m'.wf = true)
    (hnone : ∀ id', m'.segment id' = none ↔ id' ≠ id ∧ m.segment id' = none)
    (hfree : m.free = []) (hfree' : m'.free = []) (hlt : m.nextFresh < 2 ^ 32)
    (hid : id.toNat = m.nextFresh) (hnext : m'.nextFresh = m.nextFresh + 1) : m'.Inv := by
  have hempty : ∀ id', id' ∉ m'.free := by simp [hfree']
  exact {
    canonical := hwf
    programMapped := fun hn => h.programMapped ((hnone 0#32).1 hn).2
    zeroNotFree := hempty 0#32
    freeUnmapped := fun id' hf => absurd hf (hempty id')
    freeNodup := hfree' ▸ List.nodup_nil
    freeMinted := fun id' hf => absurd hf (hempty id')
    nextPositive := by omega
    nextBounded := by omega
    freshUnmapped := fun id' hn =>
      (hnone id').2 ⟨by rintro rfl; omega, h.freshUnmapped id' (by omega)⟩
    mintedAccounted := fun id' h1 hn => by
      refine .inl fun hn' => ?_
      obtain ⟨hne, hun⟩ := (hnone id').1 hn'
      have hne' : id'.toNat ≠ id.toNat := mt BitVec.eq_of_toNat_eq hne
      exact (h.mintedAccounted id' h1 (by omega)).elim (· hun) (by simp [hfree])
    idsDistinct := Memory.nodup_ids_of_wf hwf }

end

theorem Memory.Inv.allocate {m m' : Memory} {ok : Bool} {size id : Word} (h : m.Inv)
    (e : m.allocate ok size = .ok (id, m')) : m'.Inv := by
  have hnone := Memory.allocate_segment_eq_none_iff e
  have hwf := Memory.wf_allocate h.canonical e
  obtain ⟨-, -, ⟨hfree, hnext⟩ | ⟨hfree, hfree', hlt, hid, hnext⟩⟩ := Memory.allocate_eq_ok e
  · exact h.of_reuse hwf hnone hfree hnext
  · exact h.of_mint hwf hnone hfree hfree' hlt hid hnext

/-- A mapped identifier has been minted (I4). -/
theorem Memory.Inv.lt_nextFresh {m : Memory} {id : Word} (h : m.Inv) (hid : m.segment id ≠ none) :
    id.toNat < m.nextFresh := by
  by_contra hlt
  exact hid (h.freshUnmapped id (Nat.le_of_not_lt hlt))

theorem Memory.Inv.release {m m' : Memory} {id : Word} (h : m.Inv) (e : m.release id = .ok m') :
    m'.Inv := by
  obtain ⟨h0, hid, hsame, hother, hfree, hnext⟩ := Memory.release_eq_ok e
  have hunmapped : ∀ id', m.segment id' = none → m'.segment id' = none := fun id' hn =>
    (hother id' (by rintro rfl; exact hid hn)).trans hn
  have hwf := Memory.wf_release h.canonical e
  exact {
    canonical := hwf
    programMapped := hother 0#32 h0.symm ▸ h.programMapped
    zeroNotFree := by
      rw [hfree]
      exact List.not_mem_cons_of_ne_of_not_mem h0.symm h.zeroNotFree
    freeUnmapped := by
      rw [hfree]
      exact List.forall_mem_cons.2 ⟨hsame, fun id' hf => hunmapped id' (h.freeUnmapped id' hf)⟩
    freeNodup := by
      rw [hfree]
      exact List.nodup_cons.2 ⟨mt (h.freeUnmapped id) hid, h.freeNodup⟩
    freeMinted := by
      rw [hfree, hnext]
      exact List.forall_mem_cons.2 ⟨h.lt_nextFresh hid, h.freeMinted⟩
    nextPositive := hnext ▸ h.nextPositive
    nextBounded := hnext ▸ h.nextBounded
    freshUnmapped := fun id' hn => hunmapped id' (h.freshUnmapped id' (hnext ▸ hn))
    mintedAccounted := fun id' h1 hn => by
      rw [hfree, List.mem_cons]
      by_cases hne : id' = id
      · exact .inr (.inl hne)
      · rw [hother id' hne]
        exact (h.mintedAccounted id' h1 (hnext ▸ hn)).imp_right .inr
    idsDistinct := Memory.nodup_ids_of_wf hwf }

/-! Every step keeps them -/

theorem Effect.keeps_mem_inv {s t : State} {i : Instr} (h : Effect s i t) (hs : s.mem.Inv) :
    t.mem.Inv := by
  cases h with
  | sstore a b c m e => exact hs.segWrite e
  | map b c id m e => exact hs.allocate e
  | unmap c m e => exact hs.release e
  | loadp b c m h0 e => exact hs.replaceProgram h0 e
  | _ => exact hs

/-- Settles O49: a fault leaves the store, and an effect changes it by one operation of the port
at most. -/
theorem stepKeepsStoreInvariants : Obligations.StepKeepsStoreInvariants := by
  intro s t hs h
  obtain ⟨-, ⟨-, rfl⟩ | ⟨w, -, ⟨c, -, rfl⟩ | ⟨i, -, he⟩⟩⟩ := step_effect_or_fault h
  · exact hs
  · exact hs
  · exact he.keeps_mem_inv hs

/-! They hold of every loaded state and along every run -/

theorem Memory.inv_create {ws : List Word} (h : ws.length < 2 ^ 32) :
    (Memory.create ws).Inv where
  canonical := Memory.wf_create h
  programMapped := by simp [Memory.create_segment_zero]
  zeroNotFree := List.not_mem_nil
  freeUnmapped _ hf := absurd hf List.not_mem_nil
  freeNodup := List.nodup_nil
  freeMinted _ hf := absurd hf List.not_mem_nil
  nextPositive := le_rfl
  nextBounded := Nat.one_le_two_pow
  freshUnmapped _ hn :=
    Memory.create_segment_of_ne ws fun e => absurd (e ▸ hn) (by decide : ¬ 1 ≤ (0#32).toNat)
  mintedAccounted _ h1 hn := absurd h1 (Nat.not_le.2 hn)
  idsDistinct := Memory.nodup_ids_of_wf (Memory.wf_create h)

theorem load_inv {words : List Word} {input : HostInput} {alloc : AllocPolicy} {s : State}
    (h : load words input alloc = .ok s) : s.Inv := by
  obtain ⟨hlen, rfl⟩ := load_eq_ok_iff.1 h
  exact ⟨Memory.inv_create hlen, State.recordConsistent_of_none rfl Run.noConfusion⟩

/-- Settles O51: the reset state is the one that Load of the empty image gives. -/
theorem loadedStatesHaveTheInvariants : Obligations.LoadedStatesHaveTheInvariants :=
  have hreset : load [] .oracle .platform = .ok State.reset := rfl
  ⟨load_inv hreset, fun _ _ _ _ => load_inv⟩

/-- What every step keeps, the drive loop keeps under any fuel. -/
theorem drive_keeps {P : State → Prop} (hstep : ∀ s t, P s → step s = .next t → P t) (n : Nat)
    {s : State} (hs : P s) : P (drive n s) := by
  induction n generalizing s with
  | zero => exact hs
  | succ n ih =>
    unfold drive
    split
    · next t e => exact ih (hstep s t hs e)
    · exact hs
    · exact hs

/-- Settles O52: the loaded state has the invariants and every step keeps them. -/
theorem everyReachableStoreHasTheInvariants : Obligations.EveryReachableStoreHasTheInvariants := by
  intro words input alloc s n h
  obtain ⟨hmem, -⟩ := load_inv h
  exact drive_keeps stepKeepsStoreInvariants n hmem

end Sys2Proof.Machine
end

section
/-! Proofs: what a step does to the segment store (spec/20_memory.md R41, R45 to R51, R62). -/

namespace Sys2Proof.Machine

theorem sameMemory_of_mem_eq {s t : State} (h : t.mem = s.mem) : SameMemory s t := by
  simp [SameMemory, h]

/-- An effect leaves the store, except for the four instructions that have an operation of the
port. -/
theorem Effect.mem_eq {s t : State} {i : Instr} (h : Effect s i t)
    (hi : i.opcode ∉ [2, 8, 9, 12]) : t.mem = s.mem := by
  cases h with
  | sstore | map | unmap | loadp => exact absurd hi (by simp [Instr.opcode])
  | _ => rfl

/-- An effect leaves free pool and counter, except for MAP and UNMAP. -/
theorem Effect.pool_eq {s t : State} {i : Instr} (h : Effect s i t) (hi : i.opcode ∉ [8, 9]) :
    t.mem.free = s.mem.free ∧ t.mem.nextFresh = s.mem.nextFresh := by
  cases h with
  | sstore a b c m e => exact ⟨Memory.segWrite_free e, Memory.segWrite_nextFresh e⟩
  | loadp b c m h0 e =>
    obtain ⟨g, -, rfl⟩ := Memory.replaceProgram_eq_ok h0 e
    exact ⟨rfl, rfl⟩
  | map | unmap => exact absurd hi (by simp [Instr.opcode])
  | _ => exact ⟨rfl, rfl⟩

/-- UNMAP mints nothing. -/
theorem Effect.nextFresh_eq_of_unmap {s t : State} {i : Instr} (h : Effect s i t)
    (hi : i.opcode = 9) : t.mem.nextFresh = s.mem.nextFresh := by
  cases h with
  | unmap c m e =>
    obtain ⟨-, -, -, -, -, hnext⟩ := Memory.release_eq_ok e
    exact hnext
  | _ => cases hi

/-- Settles O44: a fault leaves the store, and an effect follows its opcode. -/
theorem storeChangedOnlyBySegmentOps : Obligations.StoreChangedOnlyBySegmentOps := by
  intro s t w hw h
  obtain ⟨c, -, rfl⟩ | ⟨i, hd, he⟩ := hw.effect_or_fault h
  · exact ⟨fun _ => sameMemory_of_mem_eq rfl, fun _ => ⟨rfl, rfl⟩, fun _ => rfl⟩
  · rw [bitsAt_of_decode hd]
    exact ⟨fun hi => sameMemory_of_mem_eq (he.mem_eq hi), he.pool_eq, he.nextFresh_eq_of_unmap⟩

/-- An effect changes the length of no segment that stays mapped, except for LOADP on segment 0. -/
theorem Effect.len_eq {s t : State} {i : Instr} {id : Word} {g g' : Segment} (h : Effect s i t)
    (hs : s.mem.Inv) (hg : s.mem.segment id = some g) (hg' : t.mem.segment id = some g') :
    g'.len = g.len ∨ (id = 0#32 ∧ i.opcode = 12) := by
  cases h with
  | sstore a b c m e => exact .inl (Memory.segWrite_len e hg hg')
  | map b c id₀ m e =>
    have hne : id ≠ id₀ := by
      rintro rfl
      cases (hs.segment_of_allocate e).symm.trans hg
    obtain ⟨-, hother, -⟩ := Memory.allocate_eq_ok e
    exact .inl (Memory.len_eq_of_segment_eq (hother id hne) hg hg')
  | unmap c m e =>
    obtain ⟨-, -, hsame, hother, -⟩ := Memory.release_eq_ok e
    have hne : id ≠ s.reg c := by
      rintro rfl
      cases hsame.symm.trans hg'
    exact .inl (Memory.len_eq_of_segment_eq (hother id hne) hg hg')
  | loadp b c m h0 e =>
    obtain ⟨g₀, -, rfl⟩ := Memory.replaceProgram_eq_ok h0 e
    by_cases hid : id = 0#32
    · exact .inr ⟨hid, rfl⟩
    · exact .inl
        (Memory.len_eq_of_segment_eq (s.mem.segment_setSegment_of_ne g₀ hid) hg hg')
  | _ => exact .inl (Memory.len_eq_of_segment_eq rfl hg hg')

/-- Settles O46: a fault leaves the store, and an effect all lengths but the one of LOADP. -/
theorem mappedSegmentsKeepTheirLength : Obligations.MappedSegmentsKeepTheirLength := by
  intro s t id g g' hs h hg hg'
  obtain ⟨-, ⟨-, rfl⟩ | ⟨w, hw, ⟨c, -, rfl⟩ | ⟨i, hd, he⟩⟩⟩ := step_effect_or_fault h
  · exact .inl (Memory.len_eq_of_segment_eq rfl hg hg')
  · exact .inl (Memory.len_eq_of_segment_eq rfl hg hg')
  · exact (he.len_eq hs hg hg').imp_right fun ⟨hid, hi⟩ =>
      ⟨hid, w, hw, (bitsAt_of_decode hd).trans hi⟩

/-! A fetch sees the latest contents of segment 0 (R62) -/

theorem Memory.segWrite_fetch_same {m m' : Memory} {off v : Word}
    (e : m.segWrite 0#32 off v = .ok m') : m'.fetch off = .ok v :=
  Memory.fetch_of_segRead (Memory.segWrite_segRead_same e)

theorem Memory.segWrite_fetch_of_ne {m m' : Memory} {off off' v : Word}
    (e : m.segWrite 0#32 off v = .ok m') (h : off' ≠ off) : m'.fetch off' = m.fetch off' := by
  obtain ⟨g, hg, -, rfl⟩ := Memory.segWrite_eq_ok e
  have hne : off.toNat ≠ off'.toNat := fun eq => h (BitVec.eq_of_toNat_eq eq.symm)
  rw [Memory.fetch_of_mapped (m.segment_setSegment_same 0#32 _), Memory.fetch_of_mapped hg,
    Segment.setWord_len, Segment.word_setWord, if_neg hne]

/-- Settles O47: the two steps are the write and the replacement, and a fetch reads what they
leave in segment 0. -/
theorem storesAreSeenByTheNextFetch : Obligations.StoresAreSeenByTheNextFetch := by
  refine ⟨fun s w a b c g hw hd ha hg hoff => ?_, fun s w b c g hw hd hb hg => ?_⟩
  · obtain ⟨m, e⟩ : ∃ m, s.mem.segWrite 0#32 (s.reg b) (s.reg c) = .ok m :=
      ⟨_, (Memory.segWrite_of_mapped (s.reg c) hg).trans (if_pos hoff)⟩
    have ea : s.mem.segWrite (s.reg a) (s.reg b) (s.reg c) = .ok m := by rw [ha, e]
    exact ⟨_, (step_of_instr hw.1 hw.2 hd).trans (execSstore_ok s.advance ea),
      Memory.segWrite_fetch_same e, fun _ => Memory.segWrite_fetch_of_ne e⟩
  · have e := Memory.replaceProgram_of_mapped hb hg
    exact ⟨_, (step_of_instr hw.1 hw.2 hd).trans (execLoadp_ok s.advance hb e), rfl,
      Memory.fetch_of_mapped (s.mem.segment_setSegment_same 0#32 g)⟩

end Sys2Proof.Machine
end

section
/-! Proofs: the bit-field codec (spec/30_encoding.md R80 to R85). -/

namespace Sys2Proof

/-! `extract_unsigned` and `fits_unsigned` -/

theorem extractUnsigned_within (w : Word) {width offset : Nat} (h : width + offset ≤ 32) :
    extractUnsigned w width offset = .ok (fieldOf w width offset) := if_pos h

theorem extractUnsigned_past (w : Word) {width offset : Nat} (h : 32 < width + offset) :
    extractUnsigned w width offset = .error .codecContract := if_neg h.not_ge

theorem fitsUnsigned_iff {value width : Nat} :
    fitsUnsigned value width = true ↔ value < 2 ^ width := decide_eq_true_iff

/-- A register-index field of the decoder is the codec's field (R90). -/
theorem regField_eq_fieldOf (w : Word) (offset : Nat) :
    (regField w offset).val = fieldOf w 3 offset :=
  (regField_val w offset).trans (fieldOf_eq w 3 offset).symm

/-- The immediate field of the decoder is the codec's field (R91). -/
theorem fieldImm_eq_fieldOf (w : Word) : (fieldImm w).toNat = fieldOf w 25 0 := by
  rw [fieldImm_toNat, fieldOf_eq, pow_zero, Nat.div_one]

/-! `pack_unsigned` -/

section
variable {w r : Word} {width offset value : Nat}

theorem packUnsigned_past (w : Word) (value : Nat) (h : 32 < width + offset) :
    packUnsigned w width offset value = .error .codecContract := if_neg h.not_ge

theorem packUnsigned_overflow (w : Word) (h : width + offset ≤ 32) (hv : 2 ^ width ≤ value) :
    packUnsigned w width offset value = .error .encodingOverflow :=
  (if_pos h).trans (if_neg fun hfits => hv.not_gt (fitsUnsigned_iff.1 hfits))

/-- A pack that answers a word was of a field inside the word and a value that fits it. -/
theorem within_and_lt_of_packUnsigned (e : packUnsigned w width offset value = .ok r) :
    width + offset ≤ 32 ∧ value < 2 ^ width := by
  by_contra hn
  obtain hpast | hwithin := Nat.lt_or_ge 32 (width + offset)
  · cases (packUnsigned_past w value hpast).symm.trans e
  · have hv : 2 ^ width ≤ value := by omega
    cases (packUnsigned_overflow w hwithin hv).symm.trans e

/-- The bits of a packed word: the value's inside the field, the old ones outside (R83). -/
theorem getLsbD_of_packUnsigned (e : packUnsigned w width offset value = .ok r) {i : Nat}
    (hi : i < 32) : r.getLsbD i =
      if offset ≤ i ∧ i < offset + width then value.testBit (i - offset) else w.getLsbD i := by
  obtain ⟨h, hv⟩ := within_and_lt_of_packUnsigned e
  cases (packUnsigned_ok h hv).symm.trans e
  rw [BitVec.getLsbD_or, BitVec.getLsbD_and, BitVec.getLsbD_not, testBit_fieldMask _ _ _ hi,
    BitVec.getLsbD_ofNat, Nat.testBit_shiftLeft]
  by_cases hlo : offset ≤ i
  · by_cases hhi : i < offset + width
    · simp [hi, hlo, hhi]
    · have hzero : value.testBit (i - offset) = false :=
        Nat.testBit_lt_two_pow (hv.trans_le (Nat.pow_le_pow_right (by norm_num) (by omega)))
      simp [hi, hhi, hzero]
  · simp [hi, hlo]

/-- The round trip: the field of a packed word is the value. -/
theorem fieldOf_of_packUnsigned (e : packUnsigned w width offset value = .ok r) :
    fieldOf r width offset = value := by
  obtain ⟨h, hv⟩ := within_and_lt_of_packUnsigned e
  refine Nat.eq_of_testBit_eq fun i => ?_
  rw [testBit_fieldOf]
  by_cases hi : i < width
  · have hbit := getLsbD_of_packUnsigned e (i := offset + i) (by omega)
    rw [if_pos ⟨by omega, by omega⟩, Nat.add_sub_cancel_left] at hbit
    simpa [hi, BitVec.getLsbD] using hbit
  · have hzero : value.testBit i = false :=
      Nat.testBit_lt_two_pow (hv.trans_le (Nat.pow_le_pow_right (by norm_num) (by omega)))
    simp [hi, hzero]

/-- Packing a field of `v`, or 0, into a word whose bits are bits of `v` keeps it such a word. -/
theorem packUnsigned_keeps_and {v : Word} (hw : w &&& v = w)
    (hvalue : value = fieldOf v width offset ∨ value = 0)
    (e : packUnsigned w width offset value = .ok r) : r &&& v = r := by
  refine BitVec.eq_of_getLsbD_eq fun i hi => ?_
  have hbit := congrArg (·.getLsbD i) hw
  simp only [BitVec.getLsbD_and] at hbit ⊢
  rw [getLsbD_of_packUnsigned e hi]
  split
  next hin =>
    obtain rfl | rfl := hvalue
    · rw [testBit_fieldOf, Nat.add_sub_cancel' hin.1, ← BitVec.getLsbD, Bool.and_assoc,
        Bool.and_self]
    · simp
  next => exact hbit

/-- A pack inside the word, followed by what overflows, overflows: the only error of the first is
the same. -/
theorem packUnsigned_bind_overflow {k : Word → Except Cause Word} (h : width + offset ≤ 32)
    (hk : value < 2 ^ width → ∀ r, k r = .error .encodingOverflow) :
    (packUnsigned w width offset value >>= k) = .error .encodingOverflow := by
  obtain hv | hv := Nat.lt_or_ge value (2 ^ width)
  · rw [packUnsigned_ok h hv]
    exact hk hv _
  · rw [packUnsigned_overflow w h hv]
    rfl

/-- Packing a field of `v`, or 0, inside a chain of packs keeps what `packUnsigned_keeps_and`
says, for the rest of the chain to start from. -/
theorem packUnsigned_bind_keeps_and {v : Word} {k : Word → Except Cause Word} (hw : w &&& v = w)
    (hvalue : value = fieldOf v width offset ∨ value = 0)
    (e : (packUnsigned w width offset value >>= k) = .ok r) : ∃ u, u &&& v = u ∧ k u = .ok r := by
  cases hp : packUnsigned w width offset value with
  | error c => rw [hp] at e; cases e
  | ok u => rw [hp] at e; exact ⟨u, packUnsigned_keeps_and hw hvalue hp, e⟩

end

/-! The statements about the codec -/

/-- Settles O1: the field's quotient and remainder, its bound and its bits. -/
theorem extractReadsTheField : Obligations.ExtractReadsTheField := fun w width offset h =>
  ⟨fieldOf w width offset, extractUnsigned_within w h, fieldOf_eq .., fieldOf_lt ..,
    testBit_fieldOf w width offset⟩

/-- Settles O2: the contract is the first check, and each field of the decoder meets it. -/
theorem codecContractIsRaised : Obligations.CodecContractIsRaised := by
  refine ⟨fun w width offset h =>
    ⟨extractUnsigned_past w h, fun v => packUnsigned_past w v h⟩, fun w => ?_⟩
  have hreg : ∀ offset, offset ≤ 29 →
      extractUnsigned w 3 offset = .ok (regField w offset).val := fun offset h =>
    (extractUnsigned_within w (by omega)).trans (congrArg _ (regField_eq_fieldOf w offset).symm)
  exact ⟨extractUnsigned_within w (by decide), hreg 6 (by decide), hreg 3 (by decide),
    hreg 0 (by decide), hreg 25 (by decide),
    (extractUnsigned_within w (by decide)).trans (congrArg _ (fieldImm_eq_fieldOf w).symm)⟩

/-- Settles O3: a word is below 2^32, so below every larger power. -/
theorem fitsMeansBelowThePower : Obligations.FitsMeansBelowThePower :=
  ⟨fun _ _ => fitsUnsigned_iff, rfl, rfl, fun v _ h =>
    fitsUnsigned_iff.2 (v.isLt.trans_le (Nat.pow_le_pow_right (by decide) h))⟩

/-- Settles O4: the bits of a packed word, and the two refusals. -/
theorem packReplacesOnlyTheField : Obligations.PackReplacesOnlyTheField := fun w _ _ value =>
  ⟨fun h hv => ⟨_, packUnsigned_ok h hv, fun _ => getLsbD_of_packUnsigned (packUnsigned_ok h hv)⟩,
    packUnsigned_overflow w, packUnsigned_past w value⟩

/-- Settles O5: the field of a packed word is the value, and no other bit is written. -/
theorem packThenExtractGivesTheValue : Obligations.PackThenExtractGivesTheValue := by
  intro w width offset value h hv
  have e := packUnsigned_ok (w := w) h hv
  refine ⟨_, e, ?_, fun i hi hout => ?_⟩
  · rw [extractUnsigned_within _ h, fieldOf_of_packUnsigned e]
  · rw [getLsbD_of_packUnsigned e hi, if_neg (by omega)]

end Sys2Proof
end

section
/-! Proofs: the decoder (spec/30_encoding.md R86 to R95). -/

namespace Sys2Proof.Machine

/-! What a word decodes to -/

/-- A word with the opcode of `i` decodes to the instruction of that kind with the word's fields. -/
theorem decode_of_opcode {w : Word} {i : Instr} (h : opcodeOf w = i.opcode) :
    decode w = .instr (Instr.withFieldsOf w i) := by
  cases i <;> simp only [decode, h, Instr.opcode, Instr.withFieldsOf]

/-- R87, for an opcode whose instruction takes its operands from the fields A, B and C. -/
theorem decodes3R_of_withFieldsOf {op : Nat} {mk : Reg → Reg → Reg → Instr}
    (hop : ∀ a b c, (mk a b c).opcode = op)
    (hmk : ∀ w a b c, Instr.withFieldsOf w (mk a b c) = mk (fieldA w) (fieldB w) (fieldC w)) :
    Decodes3R op mk := by
  intro w a b c ho ha hb hc
  rw [bitsAt_opcode] at ho
  rw [bitsAt_fieldA] at ha
  rw [bitsAt_fieldB] at hb
  rw [decode_of_opcode (ho.trans (hop a b c).symm), hmk, Fin.ext ha, Fin.ext hb, ← eq_fieldC hc]

theorem bitsAt_fieldImm (w : Word) : bitsAt w 24 0 = (fieldImm w).toNat :=
  (bitsAt_eq_fieldOf w 24 0).trans (fieldImm_eq_fieldOf w).symm

theorem decode_lv_of_bitsAt (w : Word) (r : Reg) (imm : Word) (ho : bitsAt w 31 28 = 13)
    (hr : bitsAt w 27 25 = r.val) (himm : bitsAt w 24 0 = imm.toNat) :
    decode w = .instr (.lv r imm) := by
  rw [bitsAt_opcode] at ho
  rw [bitsAt_fieldR] at hr
  rw [bitsAt_fieldImm] at himm
  rw [decode_of_opcode (i := .lv r imm) ho, Instr.withFieldsOf, Fin.ext hr,
    BitVec.eq_of_toNat_eq himm]

/-- Opcodes 14 and 15 are invalid (R95): no instruction is decoded from them, and the verdict names
the opcode. -/
theorem decode_invalid_of_bitsAt (w : Word) (h : 14 ≤ bitsAt w 31 28) :
    decode w = .invalid (bitsAt w 31 28) := by
  rw [bitsAt_opcode] at h ⊢
  cases hd : decode w with
  | instr i => exact absurd ((decode_instr_iff w).1 ⟨i, hd⟩) h.not_gt
  | invalid op => rw [(invalid_of_decode hd).1]

/-- Settles O6: each opcode below 13 has an instruction whose operands are the fields A, B and C
that it uses; LV and the two invalid opcodes. -/
theorem decoderFollowsTheOpcodeMap : Obligations.DecoderFollowsTheOpcodeMap := by
  have h3R {op : Nat} {mk : Reg → Reg → Reg → Instr} :=
    decodes3R_of_withFieldsOf (op := op) (mk := mk)
  refine ⟨h3R ?_ ?_, h3R ?_ ?_, h3R ?_ ?_, h3R ?_ ?_, h3R ?_ ?_, h3R ?_ ?_, h3R ?_ ?_, h3R ?_ ?_,
    h3R ?_ ?_, h3R ?_ ?_, h3R ?_ ?_, h3R ?_ ?_, h3R ?_ ?_, decode_lv_of_bitsAt,
    decode_invalid_of_bitsAt⟩ <;> intros <;> rfl

/-! Ignored bits (R94) -/

/-- Words that agree on the bits from `hi` down agree on every register field among them. -/
theorem regField_congr {w w' : Word} {hi offset : Nat} (h : bitsAt w hi 0 = bitsAt w' hi 0)
    (ho : offset + 3 ≤ hi + 1) : regField w offset = regField w' offset := by
  refine Fin.ext ?_
  rw [regField_eq_fieldOf, regField_eq_fieldOf]
  refine Nat.eq_of_testBit_eq fun i => ?_
  rw [testBit_fieldOf, testBit_fieldOf]
  by_cases hlt : i < 3
  · have hbit := congrArg (·.testBit (offset + i)) h
    have hin : offset + i < hi + 1 := by omega
    simpa [bitsAt_eq_fieldOf, testBit_fieldOf, hlt, hin] using hbit
  · simp [hlt]

section
variable {w w' : Word}

/-- Words with one opcode decode alike when the instructions of that opcode take the same operands
from both. -/
theorem decode_congr (ho : bitsAt w 31 28 = bitsAt w' 31 28) (h13 : bitsAt w 31 28 ≤ 13)
    (hf : ∀ i : Instr, i.opcode = bitsAt w 31 28 →
      Instr.withFieldsOf w i = Instr.withFieldsOf w' i) : decode w = decode w' := by
  rw [bitsAt_opcode] at h13
  obtain ⟨i, hd⟩ := (decode_instr_iff w).2 (by omega)
  have hi := bitsAt_of_decode hd
  have hi' : opcodeOf w' = i.opcode := by rw [← bitsAt_opcode, ← ho, hi]
  rw [hd, decode_of_opcode hi', ← hf i hi.symm, withFieldsOf_of_decode hd]

/-- The fields each instruction but LV takes its operands from: A below opcode 7, B also for MAP and
LOADP, C for all but HALT. -/
theorem withFieldsOf_congr {i : Instr} (h13 : i.opcode ≠ 13)
    (ha : i.opcode ≤ 6 → fieldA w = fieldA w')
    (hb : i.opcode ≤ 6 ∨ i.opcode = 8 ∨ i.opcode = 12 → fieldB w = fieldB w')
    (hc : i.opcode ≠ 7 → fieldC w = fieldC w') :
    Instr.withFieldsOf w i = Instr.withFieldsOf w' i := by
  cases i with
  | lv => exact absurd rfl h13
  | halt => rfl
  | _ => simp_all [Instr.withFieldsOf, Instr.opcode]

end

/-- Settles O7: the fields an instruction uses are register fields among the bits that agree. -/
theorem ignoredBitsDoNotMatter : Obligations.IgnoredBitsDoNotMatter := by
  intro w w' ho
  refine ⟨fun hle h => ?_, fun h7 => ?_, fun hor h => ?_, fun hge hle h => ?_, fun hle => ?_⟩
  · exact decode_congr ho (by omega) fun i hi => withFieldsOf_congr (by omega)
      (fun _ => regField_congr h (by decide)) (fun _ => regField_congr h (by decide))
      (fun _ => regField_congr h (by decide))
  · exact decode_congr ho (by omega) fun i hi => withFieldsOf_congr (by omega)
      (by omega) (by omega) (by omega)
  · exact decode_congr ho (by omega) fun i hi => withFieldsOf_congr (by omega)
      (by omega) (fun _ => regField_congr h (by decide)) (fun _ => regField_congr h (by decide))
  · exact decode_congr ho (by omega) fun i hi => withFieldsOf_congr (by omega)
      (by omega) (by omega) (fun _ => regField_congr h (by decide))
  · rw [bitsAt_opcode] at hle
    exact (decode_instr_iff w).2 (by omega)

/-! Invalid opcodes and immediates that no word has -/

/-- Settles O35: the dispatch of an invalid word raises its fault on the state with the advanced
pc. -/
theorem invalidOpcodeFaults : Obligations.InvalidOpcodeFaults := by
  intro s w ⟨hrun, hfetch⟩ h
  have hd := decode_invalid_of_bitsAt w h
  exact ⟨hd, s.invalidFault w, step_of_invalid hrun hfetch hd, rfl, rfl, rfl, fun _ => rfl,
    sameMemory_of_mem_eq rfl, rfl, rfl, rfl⟩

theorem changesOnlyReg_setReg (s : State) (r : Reg) (v : Word) :
    ChangesOnlyReg s (s.setReg r v) r :=
  ⟨fun _ => s.setReg_other v, rfl, sameMemory_of_mem_eq rfl, ⟨rfl, rfl⟩, rfl, rfl, rfl⟩

theorem wellFormed_lv_iff {r : Reg} {imm : Word} :
    (Instr.lv r imm).wellFormed = true ↔ imm.toNat < 2 ^ 25 := decide_eq_true_iff

/-- Settles O58: what the decoder answers is well-formed, and LV writes its immediate. -/
theorem lvWithoutAnEncodingIsNeverDecoded : Obligations.LvWithoutAnEncodingIsNeverDecoded := by
  intro r imm h
  refine ⟨fun w hd => ?_, fun s => ?_⟩
  · exact absurd (wellFormed_lv_iff.1 (wellFormed_of_decode hd)) h.not_gt
  · exact ⟨s.setReg r imm, rfl, s.setReg_same r imm, changesOnlyReg_setReg s r imm⟩

end Sys2Proof.Machine
end

section
/-! Proofs: the encoder as the decoder's inverse, and the assembler (spec/30_encoding.md R97,
R98). -/

namespace Sys2Proof.Machine

/-! The two formats -/

theorem encode3R_overflow {op a b c : Nat} (h : 16 ≤ op ∨ 8 ≤ a ∨ 8 ≤ b ∨ 8 ≤ c) :
    encode3R op a b c = .error .encodingOverflow :=
  packUnsigned_bind_overflow (by decide) fun _ _ =>
    packUnsigned_bind_overflow (by decide) fun _ _ =>
      packUnsigned_bind_overflow (by decide) fun _ w =>
        packUnsigned_overflow w (by decide) (by omega)

theorem encodeLI_overflow {r imm : Nat} (h : 8 ≤ r ∨ 2 ^ 25 ≤ imm) :
    encodeLI r imm = .error .encodingOverflow :=
  packUnsigned_bind_overflow (by decide) fun _ _ =>
    packUnsigned_bind_overflow (by decide) fun _ w => packUnsigned_overflow w (by decide) (by omega)

/-- Settles O8: the values the two encoders pack, and the first field that does not fit. -/
theorem encodersGiveTheClosedForms : Obligations.EncodersGiveTheClosedForms :=
  ⟨fun _ _ _ _ => encode3R_toNat, fun _ _ _ _ => encode3R_overflow, fun _ _ => encodeLI_toNat,
    fun _ _ => encodeLI_overflow⟩

/-- The fields of a word of the three-register format are those it was encoded from. -/
theorem exists_encode3R {op : Nat} (ho : op < 16) (a b c : Reg) :
    ∃ w, encode3R op a b c = .ok w ∧ opcodeOf w = op ∧ fieldA w = a ∧ fieldB w = b ∧
      fieldC w = c := by
  obtain ⟨w, e, hw⟩ := encode3R_toNat ho a.isLt b.isLt c.isLt
  have ha := a.isLt
  have hb := b.isLt
  have hc := c.isLt
  refine ⟨w, e, ?_, Fin.ext ?_, Fin.ext ?_, Fin.ext ?_⟩
  · rw [opcodeOf_eq]; omega
  · rw [fieldA, regField_val]; omega
  · rw [fieldB, regField_val]; omega
  · rw [fieldC, regField_val]; omega

/-- The fields of a word of the load-immediate format are those it was encoded from. -/
theorem exists_encodeLI (r : Reg) {imm : Word} (h : imm.toNat < 2 ^ 25) :
    ∃ w, encodeLI r imm.toNat = .ok w ∧ opcodeOf w = 13 ∧ fieldR w = r ∧ fieldImm w = imm := by
  obtain ⟨w, e, hw⟩ := encodeLI_toNat r.isLt h
  have hr := r.isLt
  refine ⟨w, e, ?_, Fin.ext ?_, BitVec.eq_of_toNat_eq ?_⟩
  · rw [opcodeOf_eq]; omega
  · rw [fieldR, regField_val]; omega
  · rw [fieldImm_toNat]; omega

/-- Encoding fields of `w`, or 0 for a register, gives a word all of whose bits are bits of `w`. -/
theorem encode3R_keeps_and {w w' : Word} {a b c : Reg} (ha : a = fieldA w ∨ a = 0)
    (hb : b = fieldB w ∨ b = 0) (hc : c = fieldC w ∨ c = 0)
    (e : encode3R (opcodeOf w) a b c = .ok w') : w' &&& w = w' := by
  have hreg {r : Reg} {offset : Nat} (h : r = regField w offset ∨ r = 0) :
      r.val = fieldOf w 3 offset ∨ r.val = 0 :=
    h.imp (fun h => (congrArg Fin.val h).trans (regField_eq_fieldOf w offset)) (congrArg Fin.val)
  obtain ⟨w0, h0, e⟩ := packUnsigned_bind_keeps_and BitVec.zero_and (.inl rfl) e
  obtain ⟨w1, h1, e⟩ := packUnsigned_bind_keeps_and h0 (hreg ha) e
  obtain ⟨w2, h2, e⟩ := packUnsigned_bind_keeps_and h1 (hreg hb) e
  exact packUnsigned_keeps_and h2 (hreg hc) e

theorem encodeLI_keeps_and {w w' : Word} (ho : opcodeOf w = 13)
    (e : encodeLI (fieldR w) (fieldImm w).toNat = .ok w') : w' &&& w = w' := by
  obtain ⟨w0, h0, e⟩ := packUnsigned_bind_keeps_and BitVec.zero_and (.inl ho.symm) e
  obtain ⟨w1, h1, e⟩ := packUnsigned_bind_keeps_and h0 (.inl (regField_eq_fieldOf w 25)) e
  exact packUnsigned_keeps_and h1 (.inl (fieldImm_eq_fieldOf w)) e

/-! Every instruction -/

/-- The operands of an instruction in the places A, B and C, 0 where it has none (R97). -/
def Instr.regs (i : Instr) : Reg × Reg × Reg :=
  match i with
  | .cmov a b c => (a, b, c)
  | .sload a b c => (a, b, c)
  | .sstore a b c => (a, b, c)
  | .add a b c => (a, b, c)
  | .mul a b c => (a, b, c)
  | .div a b c => (a, b, c)
  | .nand a b c => (a, b, c)
  | .halt => (0, 0, 0)
  | .map b c => (0, b, c)
  | .unmap c => (0, 0, c)
  | .out c => (0, 0, c)
  | .inp c => (0, 0, c)
  | .loadp b c => (0, b, c)
  | .lv _ _ => (0, 0, 0)

/-- Every instruction but LV has the three-register format (R87). -/
theorem encode_eq_encode3R {i : Instr} (h : i.opcode ≠ 13) :
    encode i = encode3R i.opcode (Instr.regs i).1 (Instr.regs i).2.1 (Instr.regs i).2.2 := by
  cases i with
  | lv => exact absurd rfl h
  | _ => rfl

/-- A word with the operands of `i` in their fields has all operands of `i`. -/
theorem withFieldsOf_of_regs {w : Word} {i : Instr} (h : i.opcode ≠ 13)
    (ha : fieldA w = (Instr.regs i).1) (hb : fieldB w = (Instr.regs i).2.1)
    (hc : fieldC w = (Instr.regs i).2.2) : Instr.withFieldsOf w i = i := by
  cases i with
  | lv => exact absurd rfl h
  | _ => simp [Instr.withFieldsOf, ha, hb, hc, Instr.regs]

/-- The operands read from a word are its fields, or 0 where the instruction has none. -/
theorem regs_of_withFieldsOf {w : Word} {i : Instr} (h : Instr.withFieldsOf w i = i) :
    ((Instr.regs i).1 = fieldA w ∨ (Instr.regs i).1 = 0) ∧
      ((Instr.regs i).2.1 = fieldB w ∨ (Instr.regs i).2.1 = 0) ∧
      ((Instr.regs i).2.2 = fieldC w ∨ (Instr.regs i).2.2 = 0) := by
  rw [← h]
  cases i <;> simp [Instr.withFieldsOf, Instr.regs]

theorem opcode_lt_16 (i : Instr) : i.opcode < 16 := by
  cases i <;> simp [Instr.opcode]

theorem exists_lv_of_opcode {i : Instr} (h : i.opcode = 13) : ∃ r imm, i = .lv r imm := by
  cases i with
  | lv r imm => exact ⟨r, imm, rfl⟩
  | _ => cases h

theorem decode_encode {i : Instr} (h : i.wellFormed = true) :
    ∃ w, encode i = .ok w ∧ decode w = .instr i := by
  by_cases hlv : i.opcode = 13
  · obtain ⟨r, imm, rfl⟩ := exists_lv_of_opcode hlv
    obtain ⟨w, e, ho, rfl, rfl⟩ := exists_encodeLI r (wellFormed_lv_iff.1 h)
    exact ⟨w, e, decode_of_opcode (i := .lv (fieldR w) (fieldImm w)) ho⟩
  · obtain ⟨w, e, ho, ha, hb, hc⟩ := exists_encode3R (opcode_lt_16 i) (Instr.regs i).1
      (Instr.regs i).2.1 (Instr.regs i).2.2
    refine ⟨w, (encode_eq_encode3R hlv).trans e, ?_⟩
    rw [decode_of_opcode ho, withFieldsOf_of_regs hlv ha hb hc]

theorem encode_overflow {i : Instr} (h : i.wellFormed = false) :
    encode i = .error .encodingOverflow := by
  cases i with
  | lv r imm =>
    have hwide : ¬ imm.toNat < 2 ^ 25 := fun hlt => by simp [wellFormed_lv_iff.2 hlt] at h
    exact encodeLI_overflow (.inr (Nat.le_of_not_lt hwide))
  | _ => cases h

/-- Encoding again what a word decodes to sets no bit that the word has not: ignored bits become
0. -/
theorem encode_keeps_and_of_decode {w w' : Word} {i : Instr} (hd : decode w = .instr i)
    (e : encode i = .ok w') : w' &&& w = w' := by
  have ho := opcode_of_decode hd
  have hi := withFieldsOf_of_decode hd
  by_cases hlv : i.opcode = 13
  · obtain ⟨r, imm, rfl⟩ := exists_lv_of_opcode hlv
    rw [← hi] at e
    exact encodeLI_keeps_and ho e
  · obtain ⟨ha, hb, hc⟩ := regs_of_withFieldsOf hi
    rw [encode_eq_encode3R hlv, ← ho] at e
    exact encode3R_keeps_and ha hb hc e

/-- Settles O9: the round trip by format, the refusal of a wide immediate, and the bits that
encoding again keeps. -/
theorem decodeInvertsEncode : Obligations.DecodeInvertsEncode := by
  refine ⟨fun _ => decode_encode, fun _ => encode_overflow, fun w i hd => ?_⟩
  have hwf := wellFormed_of_decode hd
  obtain ⟨w', e, hd'⟩ := decode_encode hwf
  exact ⟨hwf, w', e, hd', encode_keeps_and_of_decode hd e⟩

/-! The assembler -/

/-- What a line's word must be: one that decodes to the instruction, or the value. -/
def IsWordOf (l : AsmLine) (w : Word) : Prop :=
  match l with
  | .instr i => decode w = .instr i
  | .word v => w = v

theorem exists_lineWord {l : AsmLine} (h : ∀ i, l = .instr i → i.wellFormed = true) :
    ∃ w, lineWord l = .ok w ∧ IsWordOf l w := by
  cases l with
  | instr i => exact decode_encode (h i rfl)
  | word v => exact ⟨v, rfl, rfl⟩

theorem lineWord_overflow_or_ok (l : AsmLine) :
    lineWord l = .error .encodingOverflow ∨ ∃ w, lineWord l = .ok w := by
  cases l with
  | instr i =>
    cases h : i.wellFormed with
    | true => exact .inr ((decode_encode h).imp fun _ => And.left)
    | false => exact .inl (encode_overflow h)
  | word v => exact .inr ⟨v, rfl⟩

theorem assemble_cons_of_ok {l : AsmLine} {w : Word} (e : lineWord l = .ok w) (ls : List AsmLine) :
    assemble (l :: ls) = (w :: ·) <$> assemble ls := by
  simp only [assemble, List.mapM_cons, e]
  rfl

theorem assemble_cons_of_error {l : AsmLine} {c : Cause} (e : lineWord l = .error c)
    (ls : List AsmLine) : assemble (l :: ls) = .error c := by
  simp only [assemble, List.mapM_cons, e]
  rfl

theorem exists_assemble {ls : List AsmLine} (h : ∀ i, .instr i ∈ ls → i.wellFormed = true) :
    ∃ ws, assemble ls = .ok ws ∧ List.Forall₂ IsWordOf ls ws := by
  induction ls with
  | nil => exact ⟨[], rfl, .nil⟩
  | cons l ls ih =>
    obtain ⟨w, e, hw⟩ := exists_lineWord (l := l) fun i hl => h i (hl ▸ List.mem_cons_self)
    obtain ⟨ws, es, hws⟩ := ih fun i hi => h i (List.mem_cons_of_mem l hi)
    exact ⟨w :: ws, by rw [assemble_cons_of_ok e, es]; rfl, .cons hw hws⟩

theorem assemble_overflow {ls : List AsmLine} {i : Instr} (hi : .instr i ∈ ls)
    (h : i.wellFormed = false) : assemble ls = .error .encodingOverflow := by
  induction ls with
  | nil => cases hi
  | cons l ls ih =>
    obtain e | ⟨w, e⟩ := lineWord_overflow_or_ok l
    · exact assemble_cons_of_error e ls
    · obtain rfl | htail := List.mem_cons.1 hi
      · cases (encode_overflow h).symm.trans e
      · rw [assemble_cons_of_ok e, ih htail]
        rfl

/-- Settles O11: line by line, by induction on the list. -/
theorem assembledProgramDecodesToItsLines : Obligations.AssembledProgramDecodesToItsLines := by
  refine ⟨fun ls h => ?_, fun _ _ => assemble_overflow⟩
  obtain ⟨ws, e, hws⟩ := exists_assemble h
  refine ⟨ws, e, hws.length_eq.symm, fun k l w hl hw => ?_⟩
  obtain ⟨hk, hl⟩ := List.getElem?_eq_some_iff.1 hl
  obtain ⟨hk', hw⟩ := List.getElem?_eq_some_iff.1 hw
  have hline : IsWordOf l w := hl ▸ hw ▸ hws.get hk hk'
  cases l with
  | instr i => exact hline
  | word v => exact hline

end Sys2Proof.Machine
end

section
/-! Proofs: the step cycle and the run states (spec/40_step_dispatch.md R110 to R117). -/

namespace Sys2Proof.Machine

/-! The step of a word (R111 to R114) -/

/-- Settles O33: the decoder answers well-formed instructions only, and the state with the advanced
pc is the one the statement writes out. -/
theorem stepRunsTheDecodedInstruction : Obligations.StepRunsTheDecodedInstruction :=
  fun _ _ _ hrun hfetch hd => ⟨wellFormed_of_decode hd, step_of_instr hrun hfetch hd⟩

theorem Memory.fetch_past_end {m : Memory} {g : Segment} {off : Word}
    (h : m.segment 0#32 = some g) (hoff : g.len ≤ off.toNat) :
    m.fetch off = .error .fetchOutOfBounds := by
  rw [Memory.fetch_of_mapped h, if_neg hoff.not_gt]

theorem step_past_end {s : State} {g : Segment} (hrun : s.run = .running)
    (h : s.mem.segment 0#32 = some g) (hpc : g.len ≤ s.pc.toNat) :
    step s = .next (s.fetchFault .fetchOutOfBounds) :=
  step_of_fetchFault hrun (Memory.fetch_past_end h hpc)

/-- Settles O34: the fetch at either side of the end of segment 0; in the boot state of the empty
image that end is at the pc. -/
theorem fetchPastTheEndFaults : Obligations.FetchPastTheEndFaults := by
  refine ⟨fun s g hrun h hpc => ?_, fun s g h hpc => ?_, fun input alloc => ?_⟩
  · exact ⟨s.fetchFault .fetchOutOfBounds, step_past_end hrun h hpc, rfl, rfl, rfl, fun _ => rfl,
      sameMemory_of_mem_eq rfl, rfl, rfl, rfl⟩
  · rw [Memory.fetch_of_mapped h, if_pos hpc]
  · have hstep : step (State.boot [] input alloc) = _ :=
      step_past_end rfl (Memory.create_segment_zero []) (Nat.zero_le _)
    exact ⟨_, hstep, rfl, rfl⟩

/-! Which instruction stops the run (R116) -/

theorem decode_halt_of_bitsAt {w : Word} (h : bitsAt w 31 28 = 7) : decode w = .instr .halt :=
  decode_of_opcode (i := .halt) ((bitsAt_opcode w).symm.trans h)

theorem step_of_halt {s : State} {w : Word} (hw : Fetches s w) (h : bitsAt w 31 28 = 7) :
    step s = .next s.advance.stop :=
  step_of_instr hw.1 hw.2 (decode_halt_of_bitsAt h)

/-- No effect but that of HALT writes the run state. -/
theorem Effect.run_eq_of_ne_halt {s t : State} {i : Instr} (h : Effect s i t)
    (hi : i.opcode ≠ 7) : t.run = s.run := by
  cases h with
  | halt => exact absurd rfl hi
  | _ => rfl

/-- Settles O37: a HALT cannot fault, and a step with another opcode faults or has an effect that
leaves the run state; the answer is the one of the run state. -/
theorem onlyHaltHalts : Obligations.OnlyHaltHalts := by
  intro s t w hw h
  obtain ⟨hrun, hcontinue, hhalt, -⟩ := stepAnswersItsRunState s t h
  refine ⟨fun h7 => ?_, fun h7 hnf => ?_⟩
  · cases (step_of_halt hw h7).symm.trans h
    exact ⟨rfl, hhalt rfl⟩
  · obtain ⟨c, -, rfl⟩ | ⟨i, hd, he⟩ := hw.effect_or_fault h
    · exact absurd rfl hnf
    · rw [bitsAt_of_decode hd] at h7
      have ht : t.run = .running := (he.run_eq_of_ne_halt h7).trans hrun
      exact ⟨ht, hcontinue ht⟩

/-! The stopped states (R117) -/

theorem step_of_halted {s : State} (h : s.run = .halted) : step s = .fault .stepWhenHalted := by
  simp only [step, h]

theorem step_of_faulted {s : State} (h : s.run = .faulted) : step s = .fault .stepWhenFaulted := by
  simp only [step, h]

/-- In either stopped state a step is one of the two named stops. -/
theorem step_of_stopped {s : State} (h : s.run ≠ .running) : ∃ r, step s = .fault r := by
  cases hr : s.run with
  | running => exact absurd hr h
  | halted => exact ⟨_, step_of_halted hr⟩
  | faulted => exact ⟨_, step_of_faulted hr⟩

theorem drive_of_stopped {s : State} (h : s.run ≠ .running) (n : Nat) : drive n s = s := by
  obtain ⟨r, e⟩ := step_of_stopped h
  cases n with
  | zero => rfl
  | succ n => simp only [drive, e]

/-- Settles O38: the step in each run state, and the drive loop that takes no step. -/
theorem noStepOnceStopped : Obligations.NoStepOnceStopped :=
  ⟨fun _ => step_of_halted, fun _ => step_of_faulted,
    fun _ => ⟨fun ⟨_, h⟩ => (step_cases h).1, step_running⟩, fun n _ h => drive_of_stopped h n⟩

/-- Settles O39: a running state has a next state, and a stopped one a named stop. -/
theorem stepIsNeverRefused : Obligations.StepIsNeverRefused := by
  intro s r h
  by_cases hr : s.run = .running
  · obtain ⟨t, e⟩ := step_running hr
    cases e.symm.trans h
  · obtain ⟨r', e⟩ := step_of_stopped hr
    cases e.symm.trans h

end Sys2Proof.Machine
end

section
/-! Proofs: the register operations (spec/41_register_ops.md R120 to R125). -/

namespace Sys2Proof.Machine

/-! The rules the six instructions share -/

theorem State.setReg_reg_self (s : State) (r : Reg) : s.setReg r (s.reg r) = s := by
  simp [State.setReg, State.reg]

/-- A handler's fault is the fault of R203, whatever its cause. -/
theorem takesFault_handlerFault (s : State) (c : Cause) : TakesFault s (s.handlerFault c) c :=
  ⟨rfl, rfl, fun _ => rfl, rfl, sameMemory_of_mem_eq rfl, rfl, rfl, rfl⟩

/-- CMOV as one write: where the condition does not hold, the register is given its own value. -/
theorem exec_cmov (a b c : Reg) (s : State) : exec (.cmov a b c) s =
    .next (s.setReg a (if s.reg c = 0#32 then s.reg a else s.reg b)) := by
  by_cases h : s.reg c = 0#32
  · simp [exec, execCmov, h, State.setReg_reg_self]
  · simp [exec, execCmov, h]

theorem getLsbD_nandOf (u v : Word) {i : Nat} (h : i < 32) :
    (nandOf u v).getLsbD i = !(u.getLsbD i && v.getLsbD i) := by
  rw [nandOf, BitVec.getLsbD_not, BitVec.getLsbD_and, decide_eq_true h, Bool.true_and]

/-! The instructions -/

/-- Settles O12: CMOV is one write of the value that its condition selects. -/
theorem cmovMovesWhenConditionNonzero : Obligations.CmovMovesWhenConditionNonzero :=
  ⟨decodes3R_of_withFieldsOf (fun _ _ _ => rfl) fun _ _ _ _ => rfl, fun a b c s =>
    ⟨_, exec_cmov a b c s, s.setReg_same a _, changesOnlyReg_setReg s a _⟩⟩

/-- Settles O13: ADD is one write of the sum. -/
theorem addIsTheSumModulo : Obligations.AddIsTheSumModulo := by
  refine ⟨decodes3R_of_withFieldsOf (fun _ _ _ => rfl) fun _ _ _ _ => rfl, fun a b c s =>
    ⟨s.setReg a (sumOf (s.reg b) (s.reg c)), rfl, ?_, changesOnlyReg_setReg s a _⟩⟩
  rw [State.setReg_same, toNat_sumOf]

/-- Settles O14: MUL is one write of the product. -/
theorem mulIsTheProductModulo : Obligations.MulIsTheProductModulo := by
  refine ⟨decodes3R_of_withFieldsOf (fun _ _ _ => rfl) fun _ _ _ _ => rfl, fun a b c s =>
    ⟨s.setReg a (productOf (s.reg b) (s.reg c)), rfl, ?_, changesOnlyReg_setReg s a _⟩⟩
  rw [State.setReg_same, toNat_productOf]

/-- Settles O15: DIV ends as its quotient does, with one write or with the fault. -/
theorem divIsTheQuotientOrFaults : Obligations.DivIsTheQuotientOrFaults := by
  refine ⟨decodes3R_of_withFieldsOf (fun _ _ _ => rfl) fun _ _ _ _ => rfl, fun a b c s =>
    ⟨fun hc => ?_, fun hc => ?_⟩⟩
  · obtain ⟨q, hq, hval⟩ := quotientOf_nonzero (s.reg b) hc
    refine ⟨s.setReg a q, execDiv_ok s hq, ?_, changesOnlyReg_setReg s a q⟩
    rw [State.setReg_same, hval]
  · have hq : quotientOf (s.reg b) (s.reg c) = .error .divideByZero := by
      rw [hc, quotientOf_zero]
    exact ⟨s.handlerFault .divideByZero, execDiv_error s hq, takesFault_handlerFault s _⟩

/-- Settles O16: NAND is one write of the complement, bit by bit. -/
theorem nandComplementsTheAnd : Obligations.NandComplementsTheAnd := by
  refine ⟨decodes3R_of_withFieldsOf (fun _ _ _ => rfl) fun _ _ _ _ => rfl, fun a b c s =>
    ⟨s.setReg a (nandOf (s.reg b) (s.reg c)), rfl, fun i hi => ?_, changesOnlyReg_setReg s a _⟩⟩
  rw [State.setReg_same, getLsbD_nandOf _ _ hi]

/-- LV is one write of its immediate, wide or not. -/
theorem exec_lv_writes (r : Reg) (imm : Word) (s : State) :
    ∃ t, exec (.lv r imm) s = .next t ∧ t.reg r = imm ∧ ChangesOnlyReg s t r :=
  ⟨s.setReg r imm, rfl, s.setReg_same r imm, changesOnlyReg_setReg s r imm⟩

/-- Settles O17: the decoder gives LV the immediate field, LV writes it, and an immediate that
does not fit the field is refused by the encoder. -/
theorem lvLoadsTheImmediate : Obligations.LvLoadsTheImmediate := by
  refine ⟨fun w r ho hr => ?_, fun r imm s _ => exec_lv_writes r imm s, fun _ _ h =>
    encodeLI_overflow (.inr h)⟩
  refine ⟨fieldImm w, decode_lv_of_bitsAt w r _ ho hr (bitsAt_fieldImm w), fun s => ?_⟩
  obtain ⟨t, ht, hreg, hframe⟩ := exec_lv_writes r (fieldImm w) s
  exact ⟨t, ht, by rw [hreg, bitsAt_fieldImm], hframe⟩

end Sys2Proof.Machine
end

section
/-! Proofs: the segment operations (spec/42_segment_ops.md R140 to R144). -/

namespace Sys2Proof.Machine

/-! The operations of the port, by their bounds -/

section
variable {m : Memory} {id off : Word} {g : Segment}

theorem Memory.segRead_within (h : m.segment id = some g) (hoff : off.toNat < g.len) :
    m.segRead id off = .ok (g.word off.toNat) := by
  rw [Memory.segRead_of_mapped h, if_pos hoff]

theorem Memory.segRead_past_end (h : m.segment id = some g) (hoff : g.len ≤ off.toNat) :
    m.segRead id off = .error .segmentOutOfBounds := by
  rw [Memory.segRead_of_mapped h, if_neg hoff.not_gt]

theorem Memory.segWrite_within (v : Word) (h : m.segment id = some g) (hoff : off.toNat < g.len) :
    m.segWrite id off v = .ok (m.setSegment id (g.setWord off.toNat v)) := by
  rw [Memory.segWrite_of_mapped v h, if_pos hoff]

theorem Memory.segWrite_past_end (v : Word) (h : m.segment id = some g)
    (hoff : g.len ≤ off.toNat) : m.segWrite id off v = .error .segmentOutOfBounds := by
  rw [Memory.segWrite_of_mapped v h, if_neg hoff.not_gt]

/-- Where storage suffices and no identifier is free, an allocation takes the next fresh one; that
one is left, since it is a word. -/
theorem Memory.allocate_of_fresh (size : Word) (hf : m.free = []) (hid : id.toNat = m.nextFresh) :
    ∃ m', m.allocate true size = .ok (id, m') ∧ m'.free = [] ∧
      m'.nextFresh = m.nextFresh + 1 := by
  obtain ⟨id', m', e⟩ := Memory.exists_allocate_eq_ok size (.inr (hid ▸ id.isLt))
  obtain ⟨-, -, ⟨hfree, -⟩ | ⟨-, hfree, -, hid', hnext⟩⟩ := Memory.allocate_eq_ok e
  · cases hf.symm.trans hfree
  · obtain rfl : id' = id := BitVec.eq_of_toNat_eq (hid'.trans hid.symm)
    exact ⟨m', e, hfree, hnext⟩

end

/-- In a store with the invariants, an allocation never gives identifier 0, which is mapped
(spec/20_memory.md R43, I1). -/
theorem Memory.Inv.ne_zero_of_allocate {m m' : Memory} {ok : Bool} {size id : Word} (h : m.Inv)
    (e : m.allocate ok size = .ok (id, m')) : id ≠ 0#32 := by
  rintro rfl
  exact h.programMapped (h.segment_of_allocate e)

/-! The frames of an operation -/

theorem changesOnlyMemory_setMem (s : State) (m : Memory) : ChangesOnlyMemory s (s.setMem m) :=
  ⟨fun _ => rfl, rfl, ⟨rfl, rfl⟩, rfl, rfl, rfl⟩

/-- A segment reads as its identifier translates, so the second half of the frame is enough. -/
theorem sameSegmentsBut_of_segment_eq {s t : State} {id : Word}
    (h : ∀ id', id' ≠ id → t.mem.segment id' = s.mem.segment id') : SameSegmentsBut s t id :=
  ⟨fun id' off hne => Memory.segRead_congr (h id' hne) off, h⟩

theorem allZeroSegment_of_zeros {t : State} {id size : Word}
    (h : t.mem.segment id = some (Segment.zeros size.toNat)) : AllZeroSegment t id size := by
  refine ⟨⟨_, h, Segment.zeros_len _⟩, fun off => ?_⟩
  rw [Memory.segRead_of_mapped h, Segment.zeros_len, Segment.zeros_word]

/-- What MAP leaves when its allocation succeeds, however the identifier was chosen. -/
theorem exec_map_of_allocate {s : State} {c : Reg} {id : Word} {m : Memory} (b : Reg)
    (hok : s.allocOk (s.reg c) = true) (e : s.mem.allocate true (s.reg c) = .ok (id, m)) :
    ∃ t, exec (.map b c) s = .next t ∧ t.mem = m ∧ t.reg b = id ∧
      AllZeroSegment t id (s.reg c) ∧ SameSegmentsBut s t id ∧ SameRegsBut s t b ∧
      t.pc = s.pc ∧ SameControl s t ∧ SameIo s t ∧
      (s.mem.Inv → id ≠ 0#32 ∧ s.mem.segment id = none) := by
  obtain ⟨hzeros, hother, -⟩ := Memory.allocate_eq_ok e
  exact ⟨(s.setMem m).setReg b id, execMap_ok s (by rw [hok, e]), rfl, State.setReg_same _ b id,
    allZeroSegment_of_zeros hzeros, sameSegmentsBut_of_segment_eq hother,
    fun _ => (s.setMem m).setReg_other id, rfl, ⟨rfl, rfl⟩, ⟨rfl, rfl, rfl⟩,
    fun hinv => ⟨hinv.ne_zero_of_allocate e, hinv.segment_of_allocate e⟩⟩

/-! The instructions -/

/-- Settles O18: SLOAD ends as its read does, with one write or with the read's fault. -/
theorem sloadReadsTheAddressedWord : Obligations.SloadReadsTheAddressedWord := by
  refine ⟨decodes3R_of_withFieldsOf (fun _ _ _ => rfl) fun _ _ _ _ => rfl, fun a b c s =>
    ⟨rfl, fun g hg hoff => ?_, fun hg => ?_, fun g hg hoff => ?_⟩⟩
  · exact ⟨_, execSload_ok s (Memory.segRead_within hg hoff), s.setReg_same a _,
      changesOnlyReg_setReg s a _⟩
  · exact ⟨_, execSload_error s (Memory.segRead_of_unmapped hg), takesFault_handlerFault s _⟩
  · exact ⟨_, execSload_error s (Memory.segRead_past_end hg hoff), takesFault_handlerFault s _⟩

/-- Settles O19: SSTORE ends as its write does, and a write reaches one word only. -/
theorem sstoreWritesTheAddressedWord : Obligations.SstoreWritesTheAddressedWord := by
  refine ⟨decodes3R_of_withFieldsOf (fun _ _ _ => rfl) fun _ _ _ _ => rfl, fun a b c s =>
    ⟨rfl, fun id off haddr => ?_⟩⟩
  obtain ⟨rfl, rfl⟩ : s.reg a = id ∧ s.reg b = off := Prod.mk.inj haddr
  refine ⟨fun g hg hoff => ?_, fun hg => ?_, fun g hg hoff => ?_⟩
  · have e := Memory.segWrite_within (s.reg c) hg hoff
    exact ⟨_, execSstore_ok s e, Memory.segWrite_segRead_same e,
      fun _ _ => Memory.segWrite_segRead_of_ne e,
      sameSegmentsBut_of_segment_eq fun _ => Memory.segWrite_segment_of_ne e,
      Memory.segWrite_free e, Memory.segWrite_nextFresh e, changesOnlyMemory_setMem s _⟩
  · exact ⟨_, execSstore_error s (Memory.segWrite_of_unmapped _ _ hg),
      takesFault_handlerFault s _⟩
  · exact ⟨_, execSstore_error s (Memory.segWrite_past_end _ hg hoff),
      takesFault_handlerFault s _⟩

/-- Settles O20: the allocation takes the head of the pool or the next fresh identifier, and MAP
leaves the same in both cases; or it has the one fault of an allocation. -/
theorem mapGivesANewZeroSegment : Obligations.MapGivesANewZeroSegment := by
  refine ⟨decodes3R_of_withFieldsOf (fun _ _ _ => rfl) fun _ _ _ _ => rfl, fun b c s =>
    ⟨fun id rest hf hok => ?_, fun id hf hid hok => ?_, fun hfail => ?_⟩⟩
  · obtain ⟨m, e, -, -, hfree, hnext⟩ := Memory.allocate_of_free (s.reg c) hf
    obtain ⟨t, ht, rfl, hreg, hzero, hsegs, hframe⟩ := exec_map_of_allocate b hok e
    exact ⟨t, ht, hreg, hzero, hsegs, hfree, hnext, hframe⟩
  · obtain ⟨m, e, hfree, hnext⟩ := Memory.allocate_of_fresh (s.reg c) hf hid
    obtain ⟨t, ht, rfl, hreg, hzero, hsegs, hframe⟩ := exec_map_of_allocate b hok e
    exact ⟨t, ht, hreg, hzero, hsegs, hfree, hnext, hframe⟩
  · have e : s.mem.allocate (s.allocOk (s.reg c)) (s.reg c) = .error .allocationFailure := by
      obtain ⟨hf, hn⟩ | hok := hfail
      · exact Memory.allocate_exhausted _ _ hf hn
      · rw [hok, Memory.allocate_refused]
    exact ⟨_, execMap_error s e, takesFault_handlerFault s _⟩

/-- Settles O21: UNMAP ends as its release does. -/
theorem unmapReleasesTheSegment : Obligations.UnmapReleasesTheSegment := by
  refine ⟨decodes3R_of_withFieldsOf (fun _ _ _ => rfl) fun _ _ _ _ => rfl, fun c s =>
    ⟨fun g h0 hg => ?_, fun h0 => ?_, fun h0 hg => ?_⟩⟩
  · have hmapped : s.mem.segment (s.reg c) ≠ none := by simp [hg]
    obtain ⟨m, e⟩ := Memory.exists_release_eq_ok h0 hmapped
    obtain ⟨-, -, hsame, hother, hfree, hnext⟩ := Memory.release_eq_ok e
    exact ⟨_, execUnmap_ok s e, hsame, hfree, hnext, sameSegmentsBut_of_segment_eq hother,
      changesOnlyMemory_setMem s m⟩
  · have e : s.mem.release (s.reg c) = .error .releaseProgramSegment := by
      rw [h0, Memory.release_zero]
    exact ⟨_, execUnmap_error s e, takesFault_handlerFault s _⟩
  · exact ⟨_, execUnmap_error s (Memory.release_of_unmapped h0 hg), takesFault_handlerFault s _⟩

end Sys2Proof.Machine
end

section
/-! Proofs: control and input/output (spec/43_control_io.md R160 to R163). -/

namespace Sys2Proof.Machine

/-- Identifiers that translate to one segment read alike, be it in one store or in two. -/
theorem Memory.segRead_eq_of_mapped {m m' : Memory} {id id' : Word} {g : Segment}
    (h' : m'.segment id' = some g) (h : m.segment id = some g) (off : Word) :
    m'.segRead id' off = m.segRead id off := by
  rw [Memory.segRead_of_mapped h', Memory.segRead_of_mapped h]

/-- Settles O25: LOADP ends as its replacement does, with the jump or with the fault; with x[B] = 0
there is only the jump. -/
theorem loadpReplacesTheProgramAndJumps : Obligations.LoadpReplacesTheProgramAndJumps := by
  refine ⟨decodes3R_of_withFieldsOf (fun _ _ _ => rfl) fun _ _ _ _ => rfl, fun b c s =>
    ⟨fun h0 => ?_, fun g h0 hg => ?_, fun h0 hg => ?_⟩⟩
  · exact ⟨_, execLoadp_zero s h0, rfl, fun _ => rfl, sameMemory_of_mem_eq rfl, ⟨rfl, rfl⟩,
      rfl, rfl, rfl⟩
  · have hcopy : (s.mem.setSegment 0#32 g).segment 0#32 = some g :=
      Memory.segment_setSegment_same s.mem 0#32 g
    exact ⟨_, execLoadp_ok s h0 (Memory.replaceProgram_of_mapped h0 hg), rfl, hcopy,
      Memory.segRead_eq_of_mapped hcopy hg,
      sameSegmentsBut_of_segment_eq fun _ => Memory.segment_setSegment_of_ne s.mem g,
      rfl, rfl, fun _ => rfl, ⟨rfl, rfl⟩, rfl, rfl, rfl⟩
  · exact ⟨_, execLoadp_error s h0 (Memory.replaceProgram_of_unmapped hg),
      takesFault_handlerFault s _⟩

/-- Settles O23: OUT ends as the check of its value does. -/
theorem outSendsOneByte : Obligations.OutSendsOneByte := by
  refine ⟨decodes3R_of_withFieldsOf (fun _ _ _ => rfl) fun _ _ _ _ => rfl, fun c s =>
    ⟨fun hfits => ?_, fun hwide => ?_⟩⟩
  · obtain ⟨b, e, hval⟩ := outputByte_fits hfits
    exact ⟨s.send b, b, execOut_ok s e, rfl, hval, fun _ => rfl, rfl, sameMemory_of_mem_eq rfl,
      ⟨rfl, rfl⟩, rfl, rfl⟩
  · exact ⟨_, execOut_error s (outputByte_wide hwide), takesFault_handlerFault s _⟩

/-- Settles O24: IN is one write of what the item stands for, in the state that has taken it. -/
theorem inTakesOneItem : Obligations.InTakesOneItem := by
  refine ⟨decodes3R_of_withFieldsOf (fun _ _ _ => rfl) fun _ _ _ _ => rfl, fun c s => ?_⟩
  have hreg : (s.takeInput.setReg c (inputWord s.input.item)).reg c = inputWord s.input.item :=
    State.setReg_same s.takeInput c _
  refine ⟨s.takeInput.setReg c (inputWord s.input.item), rfl, fun b hb => ?_, fun heof => ?_, rfl,
    fun _ => s.takeInput.setReg_other _, rfl, sameMemory_of_mem_eq rfl, ⟨rfl, rfl⟩, rfl, rfl⟩
  · rw [hreg, hb, toNat_inputWord]
  · rw [hreg, heof, inputWord]

/-- Settles O22: opcode 7 alone makes a word a HALT, whose one effect is the run state. -/
theorem haltStopsTheRun : Obligations.HaltStopsTheRun :=
  ⟨fun _ => decode_halt_of_bitsAt, fun s =>
    ⟨s.stop, rfl, rfl, rfl, fun _ => rfl, rfl, sameMemory_of_mem_eq rfl, rfl, rfl, rfl⟩⟩

end Sys2Proof.Machine
end

section
/-! Proofs: the faults of a step, their frame and their causes (spec/60_exceptions.md R200 to
R203). -/

namespace Sys2Proof.Machine

/-- Settles O41: a fault of the fetch and one of the fetched word are each one `raise`, on the state
before and after the advance; an effect does not leave Faulted. -/
theorem faultingStepChangesNothingElse : Obligations.FaultingStepChangesNothingElse := by
  intro s t h ht
  obtain ⟨hr, ⟨hf, rfl⟩ | ⟨w, ⟨-, hf⟩, ⟨c, hc, rfl⟩ | ⟨i, -, he⟩⟩⟩ := step_effect_or_fault h
  · exact ⟨fun _ => rfl, sameMemory_of_mem_eq rfl, ⟨rfl, rfl, rfl⟩, .inr ⟨hf, rfl, rfl, rfl⟩⟩
  · obtain ⟨hfetch, -⟩ := ne_of_mem_wordCauses c hc
    exact ⟨fun _ => rfl, sameMemory_of_mem_eq rfl, ⟨rfl, rfl, rfl⟩,
      .inl ⟨w, c, hf, rfl, hfetch, rfl, rfl⟩⟩
  · exact absurd ht (he.run_ne_faulted hr)

/-- The opcodes of the instructions that can raise a cause, UNMAP by name for the one cause that
the table gives to it alone (spec/60_exceptions.md R200). -/
theorem opcode_of_mem_handlerCauses {i : Instr} {c : Cause} (hc : c ∈ handlerCauses i) :
    (c = .unmappedSegment ∧ i.opcode ∈ [1, 2, 9, 12]) ∨
    (c = .segmentOutOfBounds ∧ i.opcode ∈ [1, 2]) ∨
    (c = .divideByZero ∧ i.opcode = 5) ∨
    (c = .outputRange ∧ i.opcode = 10) ∨
    (c = .releaseProgramSegment ∧ ∃ r, i = .unmap r) ∨
    (c = .allocationFailure ∧ i.opcode = 8) := by
  cases i with
  | cmov | add | mul | nand | halt | inp | lv => exact absurd hc List.not_mem_nil
  | sload | sstore | div | map | unmap | out | loadp =>
    simp only [handlerCauses, List.mem_cons, List.not_mem_nil, or_false] at hc
    simp [Instr.opcode, hc, or_comm]

/-- An UNMAP of an identifier other than 0 succeeds or finds no segment
(spec/42_segment_ops.md R144). -/
theorem exec_unmap_of_ne_zero {s : State} {c : Reg} (h0 : s.reg c ≠ 0#32) :
    (∃ m, exec (.unmap c) s = .next (s.setMem m)) ∨
      exec (.unmap c) s = .next (s.handlerFault .unmappedSegment) := by
  obtain ⟨g, -, -, e⟩ | ⟨hz, -⟩ | ⟨-, -, e⟩ := s.mem.release_cases (s.reg c)
  · exact .inl ⟨_, execUnmap_ok s e⟩
  · exact absurd hz h0
  · exact .inr (execUnmap_error s e)

/-- In the running state, an UNMAP that leaves the fault of releasing segment 0 was given
identifier 0. -/
theorem reg_eq_zero_of_unmap_fault {s t : State} {c : Reg} {r : FaultRecord}
    (h : exec (.unmap c) s = .next t) (hs : s.run = .running) (ht : t.run = .faulted)
    (hr : t.fault = some r) (hc : r.cause = .releaseProgramSegment) : s.reg c = 0#32 := by
  by_contra h0
  obtain ⟨m, e⟩ | e := exec_unmap_of_ne_zero h0
  · cases e.symm.trans h
    cases hs.symm.trans ht
  · cases e.symm.trans h
    cases hr
    cases hc

/-- Settles O42: the fault of a fetch has its one cause, and a fault of the fetched word a cause of
its opcode; for the one that asks for x[C] = 0, what UNMAP does decides. -/
theorem faultCausesFollowTheTable : Obligations.FaultCausesFollowTheTable := by
  refine ⟨rfl, fun s t h ht => ?_⟩
  obtain ⟨hr, ⟨hf, rfl⟩ | ⟨w, hw, ⟨c, hc, rfl⟩ | ⟨i, -, he⟩⟩⟩ := step_effect_or_fault h
  · exact ⟨_, rfl, .inl ⟨rfl, hf⟩⟩
  · refine ⟨_, rfl, .inr ⟨w, hw, ?_⟩⟩
    cases hd : decode w with
    | invalid op =>
      obtain ⟨hop, h14⟩ := invalid_of_decode hd
      rw [wordCauses_of_invalid hd, List.mem_singleton] at hc
      rw [bitsAt_opcode, hop]
      exact .inl ⟨hc, h14⟩
    | instr i =>
      rw [wordCauses_of_instr hd] at hc
      rw [bitsAt_of_decode hd]
      obtain hc | hc | hc | hc | ⟨rfl, r, rfl⟩ | hc := opcode_of_mem_handlerCauses hc
      · exact .inr (.inl hc)
      · exact .inr (.inr (.inl hc))
      · exact .inr (.inr (.inr (.inl hc)))
      · exact .inr (.inr (.inr (.inr (.inl hc))))
      · refine .inr (.inr (.inr (.inr (.inr (.inl ⟨rfl, rfl, fun c hbits => ?_⟩)))))
        obtain rfl : fieldC w = r := Instr.unmap.inj (withFieldsOf_of_decode hd)
        rw [step_of_instr hw.1 hw.2 hd] at h
        rw [eq_fieldC hbits]
        exact reg_eq_zero_of_unmap_fault (s := s.advance) h hr rfl rfl rfl
      · exact .inr (.inr (.inr (.inr (.inr (.inr hc)))))
  · exact absurd ht (he.run_ne_faulted hr)

end Sys2Proof.Machine
end

section
/-! Proofs: reset, the image format and `Load` (spec/70_reset_and_hazards.md R230 to R235). -/

namespace Sys2Proof.Machine

/-! The words of an image (R233) -/

/-- Four bytes leave no carry, so the sum of R233 is the word's value. -/
theorem toNat_wordOfBytes (b0 b1 b2 b3 : Byte) : (wordOfBytes b0 b1 b2 b3).toNat =
    b0.toNat * 2 ^ 24 + b1.toNat * 2 ^ 16 + b2.toNat * 2 ^ 8 + b3.toNat := by
  rw [wordOfBytes, BitVec.toNat_ofNat]
  omega

theorem imageWords_cons_of_ok {rest : List Byte} {ws : List Word} (e : imageWords rest = .ok ws)
    (b0 b1 b2 b3 : Byte) :
    imageWords (b0 :: b1 :: b2 :: b3 :: rest) = .ok (wordOfBytes b0 b1 b2 b3 :: ws) := by
  simp only [imageWords, e]

theorem imageWords_cons_of_error {rest : List Byte} {r : LoadRefusal}
    (e : imageWords rest = .error r) (b0 b1 b2 b3 : Byte) :
    imageWords (b0 :: b1 :: b2 :: b3 :: rest) = .error r := by
  simp only [imageWords, e]

/-- An image has a word for every four bytes, or its length is not a multiple of 4 and it is
refused for that. -/
theorem imageWords_cases : ∀ image : List Byte,
    (∃ ws, imageWords image = .ok ws ∧ image.length = 4 * ws.length) ∨
      (imageWords image = .error .lengthNotMultipleOf4 ∧ image.length % 4 ≠ 0)
  | [] => .inl ⟨[], rfl, rfl⟩
  | [_] | [_, _] | [_, _, _] => .inr ⟨rfl, by simp⟩
  | b0 :: b1 :: b2 :: b3 :: rest => by
    simp only [List.length_cons]
    obtain ⟨ws, e, hlen⟩ | ⟨e, hlen⟩ := imageWords_cases rest
    · exact .inl ⟨_, imageWords_cons_of_ok e b0 b1 b2 b3, by rw [List.length_cons]; omega⟩
    · exact .inr ⟨imageWords_cons_of_error e b0 b1 b2 b3, by omega⟩

theorem exists_imageWords {image : List Byte} (h : image.length % 4 = 0) :
    ∃ ws, imageWords image = .ok ws ∧ image.length = 4 * ws.length :=
  (imageWords_cases image).resolve_right fun ⟨_, hne⟩ => hne h

theorem imageWords_of_ragged {image : List Byte} (h : image.length % 4 ≠ 0) :
    imageWords image = .error .lengthNotMultipleOf4 := by
  obtain ⟨ws, -, hlen⟩ | ⟨e, -⟩ := imageWords_cases image
  · omega
  · exact e

/-- Word `i` is made of the four bytes from `4 * i` on. -/
theorem eq_wordOfBytes_of_imageWords {w : Word} {b0 b1 b2 b3 : Byte} :
    ∀ {image : List Byte} {ws : List Word} {i : Nat}, imageWords image = .ok ws →
      ws[i]? = some w → image[4 * i]? = some b0 → image[4 * i + 1]? = some b1 →
      image[4 * i + 2]? = some b2 → image[4 * i + 3]? = some b3 → w = wordOfBytes b0 b1 b2 b3
  | [], _, _, _, _, h0, _, _, _ => nomatch h0
  | [_], _, _, e, _, _, _, _, _ | [_, _], _, _, e, _, _, _, _, _
  | [_, _, _], _, _, e, _, _, _, _, _ => nomatch e
  | c0 :: c1 :: c2 :: c3 :: rest, ws, i, e, hw, h0, h1, h2, h3 => by
    obtain ⟨ws', e', -⟩ | ⟨e', -⟩ := imageWords_cases rest
    · cases (imageWords_cons_of_ok e' c0 c1 c2 c3).symm.trans e
      cases i with
      | zero =>
        cases hw; cases h0; cases h1; cases h2; cases h3
        rfl
      | succ i => exact eq_wordOfBytes_of_imageWords e' hw h0 h1 h2 h3
    · cases (imageWords_cons_of_error e' c0 c1 c2 c3).symm.trans e

/-- Settles O55: by the image, four bytes at a time. -/
theorem imageWordsAreBigEndian : Obligations.ImageWordsAreBigEndian := by
  intro image h
  obtain ⟨ws, e, hlen⟩ := exists_imageWords h
  refine ⟨ws, e, hlen, fun i w b0 b1 b2 b3 hw h0 h1 h2 h3 => ?_⟩
  rw [eq_wordOfBytes_of_imageWords e hw h0 h1 h2 h3, toNat_wordOfBytes]

/-! Which images load (R234) -/

theorem load_too_long {words : List Word} (h : 2 ^ 32 ≤ words.length) (input : HostInput)
    (alloc : AllocPolicy) : load words input alloc = .error .imageTooLong :=
  if_neg h.not_gt

theorem loadImage_of_words {image : List Byte} {ws : List Word} (e : imageWords image = .ok ws)
    (input : HostInput) (alloc : AllocPolicy) :
    loadImage image input alloc = load ws input alloc := by
  rw [loadImage, e]
  rfl

theorem loadImage_of_refused {image : List Byte} {r : LoadRefusal}
    (e : imageWords image = .error r) (input : HostInput) (alloc : AllocPolicy) :
    loadImage image input alloc = .error r := by
  rw [loadImage, e]
  rfl

/-- Settles O56: the image has no words or a quarter as many as bytes, and `load` looks at their
number; the empty image's first step is O34's. -/
theorem badImagesAreRefused : Obligations.BadImagesAreRefused := by
  refine ⟨fun image input alloc h => ?_, fun image input alloc h hlong => ?_,
    fun image input alloc h hshort => ?_, fun input alloc => ?_⟩
  · exact loadImage_of_refused (imageWords_of_ragged h) input alloc
  · obtain ⟨ws, e, hlen⟩ := exists_imageWords h
    rw [loadImage_of_words e, load_too_long (by omega)]
  · obtain ⟨ws, e, hlen⟩ := exists_imageWords h
    exact ⟨_, (loadImage_of_words e input alloc).trans (load_eq_ok_iff.2 ⟨by omega, rfl⟩)⟩
  · obtain ⟨-, -, hempty⟩ := fetchPastTheEndFaults
    obtain ⟨t, hstep, -, hfault⟩ := hempty input alloc
    exact ⟨State.boot [] input alloc, t, rfl, hstep, hfault⟩

/-! What `Load` leaves (R230 to R232, R235) -/

theorem State.boot_reg (words : List Word) (input : HostInput) (alloc : AllocPolicy) (r : Reg) :
    (State.boot words input alloc).reg r = 0#32 :=
  Vector.getElem_replicate r.isLt

/-- Settles O53: the accepted state is the boot state, its store the one of O31. -/
theorem loadGivesTheResetState : Obligations.LoadGivesTheResetState := by
  intro words input alloc s h
  obtain ⟨-, rfl⟩ := load_eq_ok_iff.1 h
  obtain ⟨-, hread, hother, hfree, hnext⟩ := createHoldsTheInitialWords words
  exact ⟨State.boot_reg words input alloc, rfl, rfl, rfl, rfl, hread, hother, hfree, hnext, rfl⟩

@[simp] theorem InputSource.item_bytes (items : List Byte) :
    (InputSource.bytes items).item = items.head? := by
  cases items with
  | nil => rfl
  | cons b rest => rfl

/-- Settles O59: the boot state's source is the host's at its start. -/
theorem loadStartsAtTheFirstItem : Obligations.LoadStartsAtTheFirstItem := by
  refine ⟨⟨rfl, rfl⟩, fun words input alloc s h => ?_⟩
  obtain ⟨-, rfl⟩ := load_eq_ok_iff.1 h
  refine ⟨rfl, ?_, ?_⟩
  · rintro rfl
    rfl
  · rintro items rfl
    exact InputSource.item_bytes items

end Sys2Proof.Machine
end

section
/-! Proofs: the written-out words of the spec (spec/95_test_vectors.md section 2.2). -/

namespace Sys2Proof.Machine

/-- A word with the opcode of `i` and the operands of `i` in its fields decodes to `i`. -/
theorem decode_eq_instr {w : Word} {i : Instr} (ho : opcodeOf w = i.opcode)
    (hf : Instr.withFieldsOf w i = i) : decode w = .instr i :=
  (decode_of_opcode ho).trans (congrArg _ hf)

/-- Settles O10: eleven words have the opcode and the fields of their instructions, and the last
two have an opcode above 13. -/
theorem writtenOutWordsDecode : Obligations.WrittenOutWordsDecode := by
  refine ⟨?_, ?_, ?_, ?_, ?_, ?_, ?_, ?_, ?_, ?_, ?_,
    decode_invalid_of_bitsAt _ (by decide), decode_invalid_of_bitsAt _ (by decide)⟩ <;>
  exact decode_eq_instr rfl rfl

end Sys2Proof.Machine
end
